-- ==== Sys2Proof/Word.lean ====
section
/-! DEFINITION. The word of CORE: a signed integer of WORD_BITS = 64 bits (00_scope.md R6, R7; 41_arithmetic.md R85). -/

namespace Sys2Proof

/-- WORD_BITS, the width of every memory cell, queue entry, operand and result (00_scope.md R6; log entry 4). -/
abbrev wordBits : Nat := 64

/-- A word. The spec reads it as a signed integer and never looks at a bit: its value is `BitVec.toInt`. -/
abbrev Word := BitVec wordBits

/-- WORD_MIN (00_scope.md R6). -/
def wordMin : Int := -9223372036854775808

/-- WORD_MAX (00_scope.md R6). -/
def wordMax : Int := 9223372036854775807

/-- The integer `r` lies in the word range (41_arithmetic.md R85). -/
abbrev FitsWord (r : Int) : Prop := wordMin ≤ r ∧ r ≤ wordMax

/-- The word whose value is `r`, for an `r` in the word range. -/
def wordOf (r : Int) : Word := BitVec.ofInt wordBits r

end Sys2Proof
end

