-- ==== Sys2Proof/Config.lean ====
section
/-! DEFINITION. The implementation parameters of 00_scope.md R6 that change what a step does, and their values for this hardware. -/

namespace Sys2Proof

/-- OVERFLOW: what `add` and `mul` do when the exact result is outside the word range (00_scope.md R6; 41_arithmetic.md R85). -/
inductive Overflow where
  | fault
  | wrap
deriving DecidableEq, Repr

/-- The parameters a machine is built with. They never change after construction (10_state.md R14; log entry 3). -/
structure Config where
  /-- OVERFLOW. -/
  overflow : Overflow
  /-- SUSPEND: `in` on an empty queue and every `out` hand control back to the host. -/
  suspend : Bool
deriving DecidableEq, Repr

/-- The values this hardware takes (00_scope.md R6: `OVERFLOW` = fault, `SUSPEND` = false). -/
def Config.thisHardware : Config := { overflow := .fault, suspend := false }

/-- The largest `LEN` (00_scope.md R6: `LEN` <= 2^(`WORD_BITS`-1) - 4). -/
def maxLen : Nat := 2 ^ (wordBits - 1) - 4

end Sys2Proof
end

