-- ==== Sys2Proof/Syntax.lean ====
section
/-! DEFINITION. The decoded instruction: one constructor per row of the opcode map (30_encoding.md R56), each with one addressing mode per parameter, as 10_state.md R21 describes it ("an opcode tag plus an ordered list of addressing modes"). -/

namespace Sys2Proof

/-- The two addressing modes (20_memory.md R39; 30_encoding.md R54). -/
inductive Mode where
  | position
  | immediate
deriving DecidableEq, Repr

/-- The mode digit that stands for a mode (30_encoding.md R54). -/
def Mode.digit : Mode → Nat
  | .position => 0
  | .immediate => 1

/-- The nine instructions of 30_encoding.md R56. `m1`, `m2`, `m3` are the modes of parameters 1, 2, 3. The parameter cells are no part of the decoded instruction: they are fetched when it executes (20_memory.md R35). `input` is the table's `in`, `output` its `out`. -/
inductive Instr where
  | add (m1 m2 m3 : Mode)
  | mul (m1 m2 m3 : Mode)
  | input (m1 : Mode)
  | output (m1 : Mode)
  | jt (m1 m2 : Mode)
  | jf (m1 m2 : Mode)
  | lt (m1 m2 m3 : Mode)
  | eq (m1 m2 m3 : Mode)
  | halt
deriving DecidableEq, Repr

namespace Instr

/-- The opcode number (30_encoding.md R56, column opnum). -/
def opnum : Instr → Nat
  | .add _ _ _ => 1
  | .mul _ _ _ => 2
  | .input _ => 3
  | .output _ => 4
  | .jt _ _ => 5
  | .jf _ _ => 6
  | .lt _ _ _ => 7
  | .eq _ _ _ => 8
  | .halt => 99

/-- The addressing modes, parameter 1 first (30_encoding.md R55, `modes`). -/
def modes : Instr → List Mode
  | .add m1 m2 m3 => [m1, m2, m3]
  | .mul m1 m2 m3 => [m1, m2, m3]
  | .input m1 => [m1]
  | .output m1 => [m1]
  | .jt m1 m2 => [m1, m2]
  | .jf m1 m2 => [m1, m2]
  | .lt m1 m2 m3 => [m1, m2, m3]
  | .eq m1 m2 m3 => [m1, m2, m3]
  | .halt => []

/-- The number of parameters (30_encoding.md R56, column arity). -/
def arity (i : Instr) : Nat := i.modes.length

/-- The number of cells the instruction occupies (30_encoding.md R51). -/
def width (i : Instr) : Nat := 1 + i.arity

/-- Which parameter is the destination (30_encoding.md R56, column destpos). -/
def destpos : Instr → Option Nat
  | .add _ _ _ => some 3
  | .mul _ _ _ => some 3
  | .input _ => some 1
  | .output _ => none
  | .jt _ _ => none
  | .jf _ _ => none
  | .lt _ _ _ => some 3
  | .eq _ _ _ => some 3
  | .halt => none

end Instr

/-- Why the decoder rejects a word (60_exceptions.md R121): the reasons of 30_encoding.md R58 to R62. `k` is a parameter number, `d` its mode digit. -/
inductive DecodeReason where
  | badOpcode
  | badMode (k d : Nat)
  | immediateDest (k : Nat)
  | excessDigits
deriving DecidableEq, Repr

end Sys2Proof
end

