-- ==== Sys2Proof/WellFormed.lean ====
section
/-! DEFINITION. Which decoded instructions exist: a destination parameter is in position mode (20_memory.md R37, R38; 30_encoding.md R62). Opcode and source modes cannot be ill-formed by their types. -/

namespace Sys2Proof

/-- The mode of parameter `k` of `i` (`k` from 1), if `i` has that parameter. -/
def Instr.mode? (i : Instr) (k : Nat) : Option Mode := i.modes[k - 1]?

/-- "Destination parameters are always interpreted in position mode ..., never immediate" (30_encoding.md R62). -/
def Instr.WellFormed (i : Instr) : Bool :=
  match i.destpos with
  | none => true
  | some k => i.mode? k == some .position

end Sys2Proof
end

