-- ==== Sys2Proof/Decode.lean ====
section
/-! DEFINITION. The instruction decoder `Decode` (30_encoding.md R52 to R62), total on words and rejecting by reason, and the encoder written from the same digit table (R52). -/

namespace Sys2Proof

/-- `dig(w, i)`: the decimal digit of weight 10^i (00_scope.md R7). -/
def dig (w i : Nat) : Nat := w / 10 ^ i % 10

/-- The mode of source parameter `k`, `m` being `w div 100` (30_encoding.md R55, R59). -/
def sourceMode (m k : Nat) : Except DecodeReason Mode :=
  match dig m (k - 1) with
  | 0 => .ok .position
  | 1 => .ok .immediate
  | d => .error (.badMode k d)

/-- The mode of destination parameter `k`: first the digit's legality, then the refusal of an immediate destination (30_encoding.md R55, R59, R62). -/
def destMode (m k : Nat) : Except DecodeReason Mode :=
  match dig m (k - 1) with
  | 0 => .ok .position
  | 1 => .error (.immediateDest k)
  | d => .error (.badMode k d)

/-- No digit stands above the last parameter's mode digit (30_encoding.md R61). -/
def noExcess (m arity : Nat) : Except DecodeReason Unit :=
  if m / 10 ^ arity = 0 then .ok () else .error .excessDigits

/-- Format F3: source, source, destination (30_encoding.md R53). -/
def decodeF3 (op : Mode → Mode → Mode → Instr) (m : Nat) : Except DecodeReason Instr := do
  let m1 ← sourceMode m 1
  let m2 ← sourceMode m 2
  let m3 ← destMode m 3
  noExcess m 3
  return op m1 m2 m3

/-- Format F2: source, source (30_encoding.md R53). -/
def decodeF2 (op : Mode → Mode → Instr) (m : Nat) : Except DecodeReason Instr := do
  let m1 ← sourceMode m 1
  let m2 ← sourceMode m 2
  noExcess m 2
  return op m1 m2

/-- Format F1S: one source (30_encoding.md R53). -/
def decodeF1S (op : Mode → Instr) (m : Nat) : Except DecodeReason Instr := do
  let m1 ← sourceMode m 1
  noExcess m 1
  return op m1

/-- Format F1D: one destination (30_encoding.md R53). -/
def decodeF1D (op : Mode → Instr) (m : Nat) : Except DecodeReason Instr := do
  let m1 ← destMode m 1
  noExcess m 1
  return op m1

/-- Format F0: no parameter (30_encoding.md R53). -/
def decodeF0 (op : Instr) (m : Nat) : Except DecodeReason Instr := do
  noExcess m 0
  return op

/-- The decoder on a non-negative word, by its decimal value: the opcode map `TABLE` (30_encoding.md R55, R56), every other opcode number rejected (R58). -/
def decodeNat (w : Nat) : Except DecodeReason Instr :=
  match w % 100 with
  | 1 => decodeF3 .add (w / 100)
  | 2 => decodeF3 .mul (w / 100)
  | 3 => decodeF1D .input (w / 100)
  | 4 => decodeF1S .output (w / 100)
  | 5 => decodeF2 .jt (w / 100)
  | 6 => decodeF2 .jf (w / 100)
  | 7 => decodeF3 .lt (w / 100)
  | 8 => decodeF3 .eq (w / 100)
  | 99 => decodeF0 .halt (w / 100)
  | _ => .error .badOpcode

/-- `Decode(w)` (30_encoding.md R55): it reads nothing but the word (R66). A negative word has no digits and is rejected (R60). -/
def decode (w : Word) : Except DecodeReason Instr :=
  if w.toInt < 0 then .error .badOpcode else decodeNat w.toInt.toNat

/-- The digits of a list of modes, the first of weight 1 (30_encoding.md R52). -/
def modeDigits : List Mode → Nat
  | [] => 0
  | m :: ms => m.digit + 10 * modeDigits ms

/-- The decimal value of the instruction word of `i` (30_encoding.md R52, R68: "`opnum + 100*m1 + 1000*m2`"). -/
def encodeNat (i : Instr) : Nat := i.opnum + 100 * modeDigits i.modes

/-- The instruction word of `i`. -/
def encode (i : Instr) : Word := BitVec.ofNat wordBits (encodeNat i)

/-- Cell `k` of an instruction laid out as one number, cell 0 in the lowest `wordBits` bits, bits above `nbits` zero (log entry 10). -/
def tableCell (nbits w k : Nat) : Word := BitVec.ofNat wordBits (w % 2 ^ nbits / 2 ^ (wordBits * k))

/-- The instruction the decoder reads from an instruction whose bits are `w`: the decoder reads the first cell and no other (30_encoding.md R55). -/
def decodeTableWord (nbits w : Nat) : Option Instr :=
  match decode (tableCell nbits w 0) with
  | .ok i => some i
  | .error _ => none

end Sys2Proof
end

