-- ==== Sys2Proof/Machine/State.lean ====
section
/-! DEFINITION. The architectural state of one CORE instance (10_state.md R13 to R27), the fault records (60_exceptions.md R120 to R124), and the reasons a step can stop. -/

namespace Sys2Proof.Machine

/-- Program memory (10_state.md R15): `len` is `LEN`; `cells` lists the cells whose word is not 0, addresses strictly rising; an in-range cell not listed holds 0 (log entry 2). No cell exists at or above `len`. -/
structure Memory where
  len : Nat
  cells : List (Nat × Word)
deriving DecidableEq, Repr

/-- The status of the machine (10_state.md R17). -/
inductive Status where
  | running
  | halted
  | faulted
deriving DecidableEq, Repr

/-- The kinds of memory access (20_memory.md R34). -/
inductive Access where
  | fetch
  | param
  | load
  | store
  | jump
deriving DecidableEq, Repr

/-- The two arithmetic operations, as an ArithmeticFault record names them (60_exceptions.md R124). -/
inductive ArithOp where
  | add
  | mul
deriving DecidableEq, Repr

/-- A fault record (60_exceptions.md R121 to R124). `ip` is the address of the opcode cell of the faulting instruction; `addr` is a mathematical integer. -/
inductive FaultRecord where
  | decodeFault (ip : Nat) (raw : Word) (reason : DecodeReason)
  | addressFault (addr : Int) (ip : Nat) (access : Access)
  | inputStarvation (ip : Nat)
  | arithmeticFault (ip : Nat) (op : ArithOp) (a b : Word)
deriving DecidableEq, Repr

/-- The state of one instance: the tuple `(mem, ip, status, fault, inq, outq)` of 10_state.md R14, with the parameters the instance was built with (`config`, and `LEN` in `mem`; log entry 3). -/
structure State where
  /-- The parameters of 00_scope.md R6; no step and no host operation changes them. -/
  config : Config
  /-- Program memory (R15). -/
  mem : Memory
  /-- The instruction pointer (R16): a non-negative integer that never wraps. -/
  ip : Nat
  /-- R17. -/
  status : Status
  /-- R18: `none`, or the record of the one fault that occurred. -/
  fault : Option FaultRecord
  /-- The input queue (R19), oldest first. -/
  inq : List Word
  /-- The output collection (R20), oldest first. -/
  outq : List Word
deriving DecidableEq, Repr

/-- Why `step` has no next state. Neither is a fault of the machine (those are FaultRecord, and raising one is a next state): both are the stuck state of 40_execution_engine.md R71, "the engine takes no step, ever again" (log entry 5). -/
inductive Fault where
  /-- Raised by `step` alone, when `status` is `Halted`. Safe: no next state is claimed. -/
  | alreadyHalted
  /-- Raised by `step` alone, when `status` is `Faulted`. Safe: no next state is claimed. -/
  | alreadyFaulted
deriving DecidableEq, Repr

/-- Why the model gives an instruction no meaning. -/
inductive Refusal where
  /-- Raised by an arm of `exec` for an instruction that has no meaning yet; no arm of this model does. Safe: no next state is claimed. -/
  | notModelled (mnemonic : String)
deriving DecidableEq, Repr

/-- The machine right after reset. Reset of CORE is construction from an image and inputs (70_reset_and_hazards.md R142); this is the reset state of 10_state.md R27 for the empty image and no input, with this hardware's parameters (log entry 1). -/
def State.reset : State where
  config := .thisHardware
  mem := { len := 0, cells := [] }
  ip := 0
  status := .running
  fault := none
  inq := []
  outq := []

end Sys2Proof.Machine
end

