-- ==== Sys2Proof/Machine/Ops.lean ====
section
/-! DEFINITION. The named operations over the state that every instruction shares: program memory and its two primitives (20_memory.md R28 to R32), the fetch (40_execution_engine.md R73, R75), the queue controllers (46_host_operations.md R116, R117), and `raise`, the trap entry of CORE (60_exceptions.md R127). CORE has no return from a fault (R131), so there is none here. -/

namespace Sys2Proof.Machine

/-! ### Program memory -/

/-- `InRange(a)` (20_memory.md R29), for any mathematical integer `a`. -/
abbrev Memory.InRange (m : Memory) (a : Int) : Prop := 0 ≤ a ∧ a < m.len

/-- What a cell that is not listed reads as. It is a matter of representation, not of reset: the image gives every cell, and the cells it gives as 0 are the ones not listed (log entry 2). -/
def Memory.unlisted : Word := 0

/-- `mem[a]` for an address already known to be in range (00_scope.md R8). -/
def Memory.get (m : Memory) (a : Nat) : Word := (m.cells.lookup a).getD Memory.unlisted

/-- The cells without address `a`. -/
def cellsErase (a : Nat) : List (Nat × Word) → List (Nat × Word)
  | [] => []
  | (b, w) :: rest => if b = a then cellsErase a rest else (b, w) :: cellsErase a rest

/-- The cells with `(a, v)` put before the first greater address. -/
def cellsInsert (a : Nat) (v : Word) : List (Nat × Word) → List (Nat × Word)
  | [] => [(a, v)]
  | (b, w) :: rest => if a < b then (a, v) :: (b, w) :: rest else (b, w) :: cellsInsert a v rest

/-- `mem[a] <- v`, every other cell keeping its value (20_memory.md R32). Writing what an unlisted cell reads as removes the entry. -/
def Memory.set (m : Memory) (a : Nat) (v : Word) : Memory :=
  { m with cells := if v = Memory.unlisted then cellsErase a m.cells else cellsInsert a v (cellsErase a m.cells) }

/-- The canonical form of a list of cells: addresses at least `lo`, strictly rising, below `len`, no entry equal to what an unlisted cell reads as. -/
def cellsOk (len lo : Nat) : List (Nat × Word) → Bool
  | [] => true
  | (a, v) :: rest => decide (lo ≤ a) && decide (a < len) && decide (v ≠ Memory.unlisted) && cellsOk len (a + 1) rest

/-- The memory is in its canonical form, so that equal memories are equal data. -/
def Memory.wf (m : Memory) : Bool := cellsOk m.len 0 m.cells

/-- The cells of an image placed from address `a` on. -/
def imageCells (a : Nat) : List Word → List (Nat × Word)
  | [] => []
  | w :: ws => if w = Memory.unlisted then imageCells (a + 1) ws else (a, w) :: imageCells (a + 1) ws

/-- The memory that holds exactly the image `P`: `LEN` is its length and `mem[a]` = `P[a]` (10_state.md R27). -/
def Memory.ofImage (P : List Word) : Memory := { len := P.length, cells := imageCells 0 P }

/-! ### The primitives -/

/-- `MemRead(addr, 1)` (20_memory.md R31): the word, or the AddressFault record that names the access. No state changes. -/
def memRead (s : State) (access : Access) (a : Int) : Except FaultRecord Word :=
  if s.mem.InRange a then .ok (s.mem.get a.toNat) else .error (.addressFault a s.ip access)

/-- `MemWrite(addr, 1, v)` (20_memory.md R32). -/
def memWrite (s : State) (a : Int) (v : Word) : Except FaultRecord State :=
  if s.mem.InRange a then .ok { s with mem := s.mem.set a.toNat v } else .error (.addressFault a s.ip .store)

/-- `ip <- ip + n`, the fall-through of an instruction of `n` cells (40_execution_engine.md R74). -/
def State.advance (s : State) (n : Nat) : State := { s with ip := s.ip + n }

/-! ### The queue controllers -/

/-- `push_back` of the input queue controller (46_host_operations.md R116). -/
def State.pushInput (s : State) (v : Word) : State := { s with inq := s.inq ++ [v] }

/-- `pop_front` of the input queue controller; `none` is its `empty?` (46_host_operations.md R116). -/
def State.popInput (s : State) : Option (Word × State) :=
  match s.inq with
  | [] => none
  | v :: rest => some (v, { s with inq := rest })

/-- `push_back` of the output queue controller (46_host_operations.md R117). -/
def State.pushOutput (s : State) (v : Word) : State := { s with outq := s.outq ++ [v] }

/-- `pop_front` of the output queue controller; `none` on empty (46_host_operations.md R117). -/
def State.popOutputFront (s : State) : Option (Word × State) :=
  match s.outq with
  | [] => none
  | v :: rest => some (v, { s with outq := rest })

/-- `pop_back` of the output queue controller; `none` on empty (46_host_operations.md R117). -/
def State.popOutputBack (s : State) : Option (Word × State) :=
  match s.outq.getLast? with
  | none => none
  | some v => some (v, { s with outq := s.outq.dropLast })

/-! ### Faults -/

/-- The numeric label of a fault (60_exceptions.md R120). -/
def FaultRecord.code : FaultRecord → Nat
  | .decodeFault _ _ _ => 1
  | .addressFault _ _ _ => 2
  | .inputStarvation _ => 3
  | .arithmeticFault _ _ _ _ => 4

/-- The `ip` field every fault record carries (60_exceptions.md R120). -/
def FaultRecord.ip : FaultRecord → Nat
  | .decodeFault ip _ _ => ip
  | .addressFault _ ip _ => ip
  | .inputStarvation ip => ip
  | .arithmeticFault ip _ _ _ => ip

/-- `raise F(info)` (60_exceptions.md R127): the record is stored, the status becomes `Faulted`, and `mem`, `ip`, `inq`, `outq` keep their values from before the step. -/
def raise (s : State) (f : FaultRecord) : State := { s with fault := some f, status := .faulted }

/-- The end of a step that began in `s`: commit the state its rule computed, or raise the fault of its first failing check from `s` itself (40_execution_engine.md R76). Raising is a next state (log entry 6). -/
def settle (s : State) : Except FaultRecord State → Host.Outcome State Fault Refusal
  | .ok s' => .next s'
  | .error f => .next (raise s f)

/-! ### The fetch -/

/-- Part 1 of a step (40_execution_engine.md R73): read the opcode cell and decode it, with the fault record of whichever fails. -/
def fetchInstr (s : State) : Except FaultRecord Instr := do
  let w ← memRead s .fetch s.ip
  match decode w with
  | .ok i => return i
  | .error reason => .error (.decodeFault s.ip w reason)

/-! ### Placing an instruction where the next step fetches it -/

/-- The memory with the four cells `c0` to `c3` placed from `a` on, grown to hold them if it is shorter: what loading an image that holds them there leaves (log entry 10). -/
def Memory.place (m : Memory) (a : Nat) (c0 c1 c2 c3 : Word) : Memory :=
  let grown : Memory := { m with len := max m.len (a + 4) }
  (((grown.set a c0).set (a + 1) c1).set (a + 2) c2).set (a + 3) c3

end Sys2Proof.Machine
end

