-- ==== Sys2Proof/Machine/Operands.lean ====
section
/-! DEFINITION. The memory addressing unit: the one resolution rule of every parameter (20_memory.md R35 to R39). -/

namespace Sys2Proof.Machine

/-- `param(k)`: the raw word in parameter cell `k` (20_memory.md R35). -/
def param (s : State) (k : Nat) : Except FaultRecord Word := memRead s .param ((s.ip + k : Nat) : Int)

/-- `ReadOperand(k)`: the effective value of source parameter `k` with mode `m` (20_memory.md R36). -/
def readOperand (s : State) (k : Nat) (m : Mode) : Except FaultRecord Word := do
  let p ← param s k
  match m with
  | .position => memRead s .load p.toInt
  | .immediate => return p

/-- `WriteTarget(k)`: the effective address of destination parameter `k`, checked when it is resolved (20_memory.md R37). It takes no mode: a destination is never resolved as an immediate (R38; log entry 11). -/
def writeTarget (s : State) (k : Nat) : Except FaultRecord Int := do
  let p ← param s k
  if s.mem.InRange p.toInt then return p.toInt else .error (.addressFault p.toInt s.ip .store)

/-- The range check of a taken jump's target (43_jumps.md R95): no memory is read. -/
def jumpTarget (s : State) (t : Word) : Except FaultRecord Nat :=
  if s.mem.InRange t.toInt then .ok t.toInt.toNat else .error (.addressFault t.toInt s.ip .jump)

/-- Format F3 (30_encoding.md R53): both sources and the destination are resolved, parameter 1 first, then the result is formed, then the write and the advance commit together (40_execution_engine.md R73, R76; 41_arithmetic.md R88). -/
def storeBinary (s : State) (m1 m2 : Mode) (result : Word → Word → Except FaultRecord Word) : Except FaultRecord State := do
  let a ← readOperand s 1 m1
  let b ← readOperand s 2 m2
  let t ← writeTarget s 3
  let v ← result a b
  let s' ← memWrite s t v
  return s'.advance 4

/-- Format F2 (30_encoding.md R53): the condition and the target are both resolved before the condition is tested (43_jumps.md R96); a taken jump checks its target (R95), one that is not taken falls through. -/
def jumpWhen (s : State) (m1 m2 : Mode) (taken : Word → Bool) : Except FaultRecord State := do
  let c ← readOperand s 1 m1
  let t ← readOperand s 2 m2
  if taken c then
    let target ← jumpTarget s t
    return { s with ip := target }
  else
    return s.advance 3

end Sys2Proof.Machine
end

