-- ==== Sys2Proof/Machine/Flags.lean ====
section
/-! DEFINITION. CORE has no flags (10_state.md R22). What takes their place: the range rule of arithmetic results `Narrow` (41_arithmetic.md R85) and the truth value a comparison writes to memory (44_compare.md R99, R100). -/

namespace Sys2Proof.Machine

/-- The exact mathematical result of an operation (41_arithmetic.md R85). -/
def ArithOp.exact (op : ArithOp) (a b : Int) : Int :=
  match op with
  | .add => a + b
  | .mul => a * b

/-- `Narrow(r)` for the result `r` of `op` on `a` and `b`: the word of value `r` when it is in range, otherwise what OVERFLOW says (41_arithmetic.md R85). -/
def narrow (s : State) (op : ArithOp) (a b : Word) : Except FaultRecord Word :=
  let r := op.exact a.toInt b.toInt
  if FitsWord r then .ok (wordOf r)
  else match s.config.overflow with
    | .fault => .error (.arithmeticFault s.ip op a b)
    | .wrap => .ok (wordOf ((r - wordMin) % 2 ^ wordBits + wordMin))

/-- The word a comparison writes: exactly 1 or 0 (44_compare.md R100). -/
def truthWord (b : Bool) : Word := if b then 1 else 0

/-- `a < b`, the signed order of the integers (44_compare.md R99). -/
def lessThan (a b : Word) : Bool := decide (a.toInt < b.toInt)

/-- `a = b`, equality of the integers (44_compare.md R99). -/
def equals (a b : Word) : Bool := decide (a.toInt = b.toInt)

end Sys2Proof.Machine
end

