-- ==== Sys2Proof/Machine/Arithmetic.lean ====
section
/-! DEFINITION. The arithmetic instructions `add` and `mul` (41_arithmetic.md R85 to R88). -/

namespace Sys2Proof.Machine

/-- `add`: `mem[t] <- Narrow(a + b)`, `ip <- ip + 4` (41_arithmetic.md R86). -/
def execAdd (m1 m2 : Mode) (s : State) : Host.Outcome State Fault Refusal :=
  settle s (storeBinary s m1 m2 (narrow s .add))

/-- `mul`: `mem[t] <- Narrow(a * b)`, `ip <- ip + 4` (41_arithmetic.md R87). -/
def execMul (m1 m2 : Mode) (s : State) : Host.Outcome State Fault Refusal :=
  settle s (storeBinary s m1 m2 (narrow s .mul))

end Sys2Proof.Machine
end

