-- ==== Sys2Proof/Machine/Compare.lean ====
section
/-! DEFINITION. The comparison instructions `lt` and `eq` (44_compare.md R97 to R100). -/

namespace Sys2Proof.Machine

/-- `lt`: `mem[t] <- 1 if a < b else 0`, `ip <- ip + 4` (44_compare.md R97). -/
def execLt (m1 m2 : Mode) (s : State) : Host.Outcome State Fault Refusal :=
  settle s (storeBinary s m1 m2 (fun a b => .ok (truthWord (lessThan a b))))

/-- `eq`: `mem[t] <- 1 if a = b else 0`, `ip <- ip + 4` (44_compare.md R98). -/
def execEq (m1 m2 : Mode) (s : State) : Host.Outcome State Fault Refusal :=
  settle s (storeBinary s m1 m2 (fun a b => .ok (truthWord (equals a b))))

end Sys2Proof.Machine
end

