-- ==== Sys2Proof/Machine/Halt.lean ====
section
/-! DEFINITION. The halt instruction (45_halt.md R101, R102). -/

namespace Sys2Proof.Machine

/-- `halt`: `status <- Halted`; `ip`, memory and queues unchanged (45_halt.md R101). -/
def execHalt (s : State) : Host.Outcome State Fault Refusal :=
  settle s (.ok { s with status := .halted })

end Sys2Proof.Machine
end

