-- ==== Sys2Proof/Machine/InputOutput.lean ====
section
/-! DEFINITION. The input and output instructions `in` and `out` (42_io.md R89 to R92). -/

namespace Sys2Proof.Machine

/-- `in`: the destination is resolved before the queue is looked at; the oldest queued value is removed and stored, `ip <- ip + 2`. On an empty queue, SUSPEND says whether InputStarvation is raised or nothing changes at all (42_io.md R89; log entry 8). -/
def execInput (s : State) : Host.Outcome State Fault Refusal :=
  settle s do
    let t ← writeTarget s 1
    match s.popInput with
    | none => if s.config.suspend then return s else .error (.inputStarvation s.ip)
    | some (v, s1) =>
      let s2 ← memWrite s1 t v
      return s2.advance 2

/-- `out`: the operand is appended to the output collection, `ip <- ip + 2` (42_io.md R90). -/
def execOutput (m1 : Mode) (s : State) : Host.Outcome State Fault Refusal :=
  settle s do
    let a ← readOperand s 1 m1
    return (s.pushOutput a).advance 2

end Sys2Proof.Machine
end

