-- ==== Sys2Proof/Machine/Jumps.lean ====
section
/-! DEFINITION. The control-transfer instructions `jt` and `jf` (43_jumps.md R93 to R96). -/

namespace Sys2Proof.Machine

/-- `jt`: taken when the condition is not zero (43_jumps.md R93). -/
def execJt (m1 m2 : Mode) (s : State) : Host.Outcome State Fault Refusal :=
  settle s (jumpWhen s m1 m2 (fun c => c != 0))

/-- `jf`: taken when the condition is zero (43_jumps.md R94). -/
def execJf (m1 m2 : Mode) (s : State) : Host.Outcome State Fault Refusal :=
  settle s (jumpWhen s m1 m2 (fun c => c == 0))

end Sys2Proof.Machine
end

