-- ==== Sys2Proof/Machine/Dispatch.lean ====
section
/-! DEFINITION. The dispatcher: one arm per row of the opcode map (40_execution_engine.md R72). The mode of a destination parameter is always position in a decoded instruction (30_encoding.md R62) and no meaning looks at it (20_memory.md R37, R38; log entry 11). -/

namespace Sys2Proof.Machine

/-- Parts 2 to 4 of a step (40_execution_engine.md R73): the rule of the decoded instruction. -/
def exec (i : Instr) (s : State) : Host.Outcome State Fault Refusal :=
  match i with
  | .add m1 m2 _ => Sys2Proof.Machine.execAdd m1 m2 s
  | .mul m1 m2 _ => Sys2Proof.Machine.execMul m1 m2 s
  | .input _ => Sys2Proof.Machine.execInput s
  | .output m1 => Sys2Proof.Machine.execOutput m1 s
  | .jt m1 m2 => Sys2Proof.Machine.execJt m1 m2 s
  | .jf m1 m2 => Sys2Proof.Machine.execJf m1 m2 s
  | .lt m1 m2 _ => Sys2Proof.Machine.execLt m1 m2 s
  | .eq m1 m2 _ => Sys2Proof.Machine.execEq m1 m2 s
  | .halt => Sys2Proof.Machine.execHalt s

end Sys2Proof.Machine
end

