-- ==== Sys2Proof/Machine/Step.lean ====
section
/-! DEFINITION. One step of the engine (40_execution_engine.md R70 to R73), and how an instruction is placed where the next step fetches it. -/

namespace Sys2Proof.Machine

/-- `Step()` (40_execution_engine.md R73). A step is taken only when `status` is `Running` (R71); a fetch or decode that fails is raised (R75; 60_exceptions.md R121), and otherwise the decoded instruction executes. -/
def step (s : State) : Host.Outcome State Fault Refusal :=
  match s.status with
  | .halted => .fault .alreadyHalted
  | .faulted => .fault .alreadyFaulted
  | .running =>
    match fetchInstr s with
    | .error f => .next (raise s f)
    | .ok i => exec i s

/-- `s` with the instruction whose bits are `w` (cell 0 in the lowest 64 bits, bits above `nbits` zero) stored in the four cells from `ip` on, memory long enough to hold them, and the machine `Running`: what the load of a program that stands there leaves (log entries 1 and 10). -/
def State.withFetchWord (s : State) (nbits w : Nat) : State :=
  { s with
    mem := s.mem.place s.ip (tableCell nbits w 0) (tableCell nbits w 1) (tableCell nbits w 2) (tableCell nbits w 3)
    status := .running
    fault := none }

end Sys2Proof.Machine
end

