-- ==== Sys2Proof/Machine/RunController.lean ====
section
/-! DEFINITION. The reply of a step and the run controller (40_execution_engine.md R73, R79 to R82; 46_host_operations.md R105 to R107). -/

namespace Sys2Proof.Machine

/-- What `Step()` returns when it raises nothing (40_execution_engine.md R73). -/
inductive StepReply where
  | done
  | outputProduced
  | needsInput
deriving DecidableEq, Repr

/-- The reply of the step from `s` to `s'`, read from the instruction it executed (log entry 8): an `out` that committed replies OutputProduced (42_io.md R90); an `in` that neither raised nor moved `ip` replies NeedsInput (R89); every other step replies Done. -/
def stepReply (s s' : State) : StepReply :=
  match fetchInstr s with
  | .ok (.output _) => if s'.status = .running then .outputProduced else .done
  | .ok (.input _) => if s'.status = .running ∧ s'.ip = s.ip then .needsInput else .done
  | _ => .done

/-- The results of `run` and `resume` (46_host_operations.md R107). `failed` carries the contents of `fault`. -/
inductive RunResult where
  | halted
  | failed (fault : Option FaultRecord)
  | outputProduced
  | needsInput
  | cancelled
deriving DecidableEq, Repr

/-- The result of a terminal machine (40_execution_engine.md R79; 46_host_operations.md R113); `none` while `Running`. -/
def terminalResult (s : State) : Option RunResult :=
  match s.status with
  | .halted => some .halted
  | .faulted => some (.failed s.fault)
  | .running => none

/-- Whether the run controller hands control back after a step with this reply (40_execution_engine.md R79, R80): never with SUSPEND = false. -/
def suspendResult (config : Config) (reply : StepReply) : Option RunResult :=
  if config.suspend then
    match reply with
    | .done => none
    | .outputProduced => some .outputProduced
    | .needsInput => some .needsInput
  else none

/-- `Run()` (40_execution_engine.md R79, R80). `samples` are the values `CancelRequested()` has before each step, drawn from the host (R81). The result is `none` when the samples are used up and the run has not ended: the machine itself has no step bound (R82; log entry 9). -/
def runLoop : List Bool → State → Option RunResult × State
  | [], s => (terminalResult s, s)
  | cancel :: samples, s =>
    match terminalResult s with
    | some r => (some r, s)
    | none =>
      if cancel then (some .cancelled, s)
      else match step s with
        | .next s' =>
          match suspendResult s.config (stepReply s s') with
          | some r => (some r, s')
          | none => runLoop samples s'
        | .fault _ => (none, s)
        | .refused _ => (none, s)

end Sys2Proof.Machine
end

