-- ==== Sys2Proof/Machine/HostOps.lean ====
section
/-! DEFINITION. The host operations (46_host_operations.md R103 to R119): everything the outside can do to an instance, each one atomic and between steps (R114). -/

namespace Sys2Proof.Machine

/-- The errors a host operation answers with; none of them touches the machine (60_exceptions.md R125, R126; 46_host_operations.md R103, R104). -/
inductive HostError where
  /-- An output accessor on an empty output collection (60_exceptions.md R125). -/
  | outputUnderflow
  /-- `inspect` of an address out of range (60_exceptions.md R126). -/
  | inspectRange
  /-- A value outside the word range given to `supply` or `construct` (46_host_operations.md R103, R104). -/
  | valueRange
  /-- An image longer than the largest LEN (46_host_operations.md R103). -/
  | imageLength
deriving DecidableEq, Repr

/-- A value the host gives, as a word; refused outside the word range (46_host_operations.md R104). -/
def hostWord (v : Int) : Except HostError Word := if FitsWord v then .ok (wordOf v) else .error .valueRange

/-- A sequence the host gives, as words. -/
def hostWords : List Int → Except HostError (List Word)
  | [] => .ok []
  | v :: vs => do
    let w ← hostWord v
    let ws ← hostWords vs
    return w :: ws

/-- The reset state for the image `P` and the initial inputs `I` (10_state.md R27). -/
def State.ofImage (config : Config) (P I : List Word) : State where
  config := config
  mem := .ofImage P
  ip := 0
  status := .running
  fault := none
  inq := I
  outq := []

/-- `construct(P, I)` (46_host_operations.md R103): the reset state, or a refusal and no instance. -/
def construct (config : Config) (P I : List Int) : Except HostError State :=
  if P.length ≤ maxLen then do
    let image ← hostWords P
    let inputs ← hostWords I
    return .ofImage config image inputs
  else .error .imageLength

/-- `supply(v)` (46_host_operations.md R104). -/
def supply (s : State) (v : Int) : Except HostError State := do
  let w ← hostWord v
  return s.pushInput w

/-- `nextOutput()` (46_host_operations.md R108): the oldest unread output, removed. -/
def nextOutput (s : State) : Except HostError (Word × State) :=
  match s.popOutputFront with
  | some r => .ok r
  | none => .error .outputUnderflow

/-- `latestOutput()` (46_host_operations.md R109): the newest output, removed. -/
def latestOutput (s : State) : Except HostError (Word × State) :=
  match s.popOutputBack with
  | some r => .ok r
  | none => .error .outputUnderflow

/-- `inspect(a)` (46_host_operations.md R111). -/
def inspect (s : State) (a : Int) : Except HostError Word :=
  if s.mem.InRange a then .ok (s.mem.get a.toNat) else .error .inspectRange

/-- What the host can ask of an instance (46_host_operations.md R115). A run carries the cancellation samples drawn during it (40_execution_engine.md R81). -/
inductive HostCall where
  | supply (v : Int)
  | run (samples : List Bool)
  | resume (samples : List Bool)
  | nextOutput
  | latestOutput
  | inspect (a : Int)
  | requestCancel
deriving DecidableEq, Repr

/-- What the machine gives back (46_host_operations.md R115). `ended none` is a run that has not ended within its samples. -/
inductive HostReply where
  | nothing
  | value (w : Word)
  | ended (r : Option RunResult)
  | error (e : HostError)
deriving DecidableEq, Repr

/-- One host operation on an instance that no run is driving: its reply and the instance after it. A run takes the cancellations requested while it goes on as its samples; `requestCancel` outside a run has no effect (46_host_operations.md R112). -/
def hostCall (c : HostCall) (s : State) : HostReply × State :=
  match c with
  | .supply v =>
    match supply s v with
    | .ok s' => (.nothing, s')
    | .error e => (.error e, s)
  | .run samples => (.ended (runLoop samples s).1, (runLoop samples s).2)
  | .resume samples => (.ended (runLoop samples s).1, (runLoop samples s).2)
  | .nextOutput =>
    match nextOutput s with
    | .ok (w, s') => (.value w, s')
    | .error e => (.error e, s)
  | .latestOutput =>
    match latestOutput s with
    | .ok (w, s') => (.value w, s')
    | .error e => (.error e, s)
  | .inspect a =>
    match inspect s a with
    | .ok w => (.value w, s)
    | .error e => (.error e, s)
  | .requestCancel => (.nothing, s)

/-! ### One thread of control -/

/-- An instance as its host has it: whether a run of it is in progress, begun and not yet returned (46_host_operations.md R114). -/
structure Session where
  machine : State
  inRun : Bool
deriving DecidableEq, Repr

/-- What can come next in the one sequence of host operations and steps (46_host_operations.md R114). -/
inductive SessionEvent where
  /-- The host makes an operation. -/
  | call (c : HostCall)
  /-- The run in progress goes on, with these further samples of `CancelRequested()` (40_execution_engine.md R81). -/
  | goOn (samples : List Bool)
deriving DecidableEq, Repr

/-- An instance that no run is driving. -/
def Session.idle (s : State) : Session := { machine := s, inRun := false }

/-- The session after a reply: a run that has not ended is in progress (log entry 9). -/
def Session.after (r : HostReply × State) : HostReply × Session := (r.1, { machine := r.2, inRun := r.1 == .ended none })

/-- The next event of a session: the reply and the session after it. `none` is the stuck state of 93_implementation_defined.md U18: while a run is in progress the host can do nothing but request cancellation, which that run's next sample sees (46_host_operations.md R114, R115), and a run can go on only while it is in progress. -/
def Session.next (x : Session) (e : SessionEvent) : Option (HostReply × Session) :=
  match x.inRun, e with
  | false, .call c => some (Session.after (hostCall c x.machine))
  | false, .goOn _ => none
  | true, .goOn samples => some (Session.after (hostCall (.resume samples) x.machine))
  | true, .call .requestCancel => some (Session.after (hostCall (.resume [true]) x.machine))
  | true, .call (.supply _) => none
  | true, .call (.run _) => none
  | true, .call (.resume _) => none
  | true, .call .nextOutput => none
  | true, .call .latestOutput => none
  | true, .call (.inspect _) => none

/-- A session, event after event (46_host_operations.md R114); `none` where one of them has no transition. -/
def hostSession : List SessionEvent → Session → Option Session
  | [], x => some x
  | e :: es, x =>
    match x.next e with
    | some r => hostSession es r.2
    | none => none

end Sys2Proof.Machine
end

