-- ==== Sys2Proof/Machine/Program.lean ====
section
/-! DEFINITION. The machine-readable opcode table (30_encoding.md R154) and the assembly notation of programs (30_encoding.md R67 to R69). No meaning depends on either. -/

namespace Sys2Proof

/-- The mnemonic of an instruction (30_encoding.md R56). -/
def Instr.mnemonic : Instr → String
  | .add _ _ _ => "add"
  | .mul _ _ _ => "mul"
  | .input _ => "in"
  | .output _ => "out"
  | .jt _ _ => "jt"
  | .jf _ _ => "jf"
  | .lt _ _ _ => "lt"
  | .eq _ _ _ => "eq"
  | .halt => "halt"

/-- A row of opcode_table.json: `mask` and `required` are the digits of its mask and match, digit 4 first (30_encoding.md R154). -/
structure OpcodeRow where
  mnemonic : String
  mask : List Nat
  required : List Nat
  opnum : Nat
  arity : Nat
  width : Nat
  destpos : Option Nat
deriving DecidableEq, Repr

/-- The nine rows, in the table's order. -/
def opcodeTable : List OpcodeRow := [
  { mnemonic := "add", mask := [9, 0, 0, 9, 9], required := [0, 0, 0, 0, 1], opnum := 1, arity := 3, width := 4, destpos := some 3 },
  { mnemonic := "mul", mask := [9, 0, 0, 9, 9], required := [0, 0, 0, 0, 2], opnum := 2, arity := 3, width := 4, destpos := some 3 },
  { mnemonic := "in", mask := [9, 9, 9, 9, 9], required := [0, 0, 0, 0, 3], opnum := 3, arity := 1, width := 2, destpos := some 1 },
  { mnemonic := "out", mask := [9, 9, 0, 9, 9], required := [0, 0, 0, 0, 4], opnum := 4, arity := 1, width := 2, destpos := none },
  { mnemonic := "jt", mask := [9, 0, 0, 9, 9], required := [0, 0, 0, 0, 5], opnum := 5, arity := 2, width := 3, destpos := none },
  { mnemonic := "jf", mask := [9, 0, 0, 9, 9], required := [0, 0, 0, 0, 6], opnum := 6, arity := 2, width := 3, destpos := none },
  { mnemonic := "lt", mask := [9, 0, 0, 9, 9], required := [0, 0, 0, 0, 7], opnum := 7, arity := 3, width := 4, destpos := some 3 },
  { mnemonic := "eq", mask := [9, 0, 0, 9, 9], required := [0, 0, 0, 0, 8], opnum := 8, arity := 3, width := 4, destpos := some 3 },
  { mnemonic := "halt", mask := [9, 9, 9, 9, 9], required := [0, 0, 0, 9, 9], opnum := 99, arity := 0, width := 1, destpos := none }]

/-- The digits of `w` from digit `i` - 1 down meet a mask and the required digits: equal where the mask has 9, 0 or 1 where it has a field. -/
def digitsMatch (w : Nat) : Nat → List Nat → List Nat → Bool
  | i + 1, m :: ms, r :: rs => (if m = 9 then dig w i == r else decide (dig w i ≤ 1)) && digitsMatch w i ms rs
  | _, _, _ => true

/-- A word matches a row (30_encoding.md R154): digit-wise, and no digit above digit 4. -/
def OpcodeRow.matchesWord (r : OpcodeRow) (w : Word) : Bool :=
  decide (0 ≤ w.toInt) && decide (w.toInt < 100000) && digitsMatch w.toInt.toNat 5 r.mask r.required

/-- A line of assembly: an instruction with the numbers of its operands, or the directive that places data (30_encoding.md R68, R69). -/
inductive AsmLine where
  | instr (i : Instr) (params : List Word)
  | word (values : List Word)
deriving DecidableEq, Repr

/-- The cells a line stands for: the instruction word, then the parameter cells with the numbers written (30_encoding.md R68). -/
def AsmLine.cells : AsmLine → List Word
  | .instr i params => encode i :: params
  | .word values => values

/-- The program image of an assembly program (30_encoding.md R67, R68). -/
def assemble (lines : List AsmLine) : List Word := lines.flatMap AsmLine.cells

/-- An operand as it is written: `[a]` in position mode, `#v` in immediate mode (30_encoding.md R68). -/
def operandText (m : Mode) (v : Word) : String :=
  match m with
  | .position => "[" ++ toString v.toInt ++ "]"
  | .immediate => "#" ++ toString v.toInt

/-- A line as it is written (30_encoding.md R68, R69). -/
def AsmLine.text : AsmLine → String
  | .instr i params => i.mnemonic ++ (if i.modes = [] then "" else " ") ++ String.intercalate ", " (List.zipWith operandText i.modes params)
  | .word values => ".word " ++ String.intercalate ", " (values.map (fun v => toString v.toInt))

end Sys2Proof
end

