-- ==== Sys2Proof/Safety.lean ====
section
/-! DEFINITION. What claims are stated in: the invariant of an instance, and what it means that an instruction changed nothing but what its rule names. -/

namespace Sys2Proof.Machine

/-- What holds of every instance in every state it reaches: memory is canonical and within the bound on `LEN` (00_scope.md R6); `ip` is at most `LEN` + 3 (40_execution_engine.md R75); a fault record is present exactly when the status is `Faulted` (10_state.md R18) and names the `ip` of the faulting instruction (60_exceptions.md R128); a halted machine stands at a cell that holds 99 (45_halt.md R101). -/
structure State.Inv (s : State) : Prop where
  memory : s.mem.wf = true
  length : s.mem.len ≤ maxLen
  pointer : s.ip ≤ s.mem.len + 3
  record : s.fault.isSome = true ↔ s.status = .faulted
  recordIp : ∀ f, s.fault = some f → f.ip = s.ip
  halted : s.status = .halted → s.ip < s.mem.len ∧ (s.mem.get s.ip).toInt = 99

/-- `s'` is `s` with the word of value `v` in the cell at address `t` and `ip` advanced by `n`: every other cell reads as before, and nothing else changed but, where a rule says so, `inq`. -/
structure State.StoresOne (s s' : State) (t v : Int) (n : Nat) : Prop where
  stored : (s'.mem.get t.toNat).toInt = v
  others : ∀ x : Nat, (x : Int) ≠ t → s'.mem.get x = s.mem.get x
  length : s'.mem.len = s.mem.len
  pointer : s'.ip = s.ip + n
  config : s'.config = s.config
  status : s'.status = s.status
  fault : s'.fault = s.fault
  outq : s'.outq = s.outq

/-- The order in which an instruction of format F3 finds its first failing operand check (60_exceptions.md R129, item 3): parameter 1, then parameter 2, then the destination. -/
def RaisesFirstOperandFault3 (run : State → Host.Outcome State Fault Refusal) (m1 m2 : Mode) : Prop :=
  ∀ (s : State) (f : FaultRecord),
    (readOperand s 1 m1 = .error f → run s = .next (raise s f)) ∧
    (∀ a, readOperand s 1 m1 = .ok a → readOperand s 2 m2 = .error f → run s = .next (raise s f)) ∧
    (∀ a b, readOperand s 1 m1 = .ok a → readOperand s 2 m2 = .ok b → writeTarget s 3 = .error f → run s = .next (raise s f))

/-- The order for format F2: the condition, the target operand, then, for a jump that is taken, the target's range (60_exceptions.md R129, items 3 and 4). -/
def RaisesFirstOperandFault2 (run : State → Host.Outcome State Fault Refusal) (m1 m2 : Mode) (taken : Word → Prop) : Prop :=
  ∀ (s : State) (f : FaultRecord),
    (readOperand s 1 m1 = .error f → run s = .next (raise s f)) ∧
    (∀ c, readOperand s 1 m1 = .ok c → readOperand s 2 m2 = .error f → run s = .next (raise s f)) ∧
    (∀ c t, readOperand s 1 m1 = .ok c → readOperand s 2 m2 = .ok t → taken c → ¬ s.mem.InRange t.toInt →
      run s = .next (raise s (.addressFault t.toInt s.ip .jump)))

/-- The number of parameters of an opcode number, read off the opcode map (30_encoding.md R56). -/
def opnumArity : Nat → Option Nat
  | 1 => some 3
  | 2 => some 3
  | 3 => some 1
  | 4 => some 1
  | 5 => some 2
  | 6 => some 2
  | 7 => some 3
  | 8 => some 3
  | 99 => some 0
  | _ => none

/-- The destination parameter of an opcode number, read off the opcode map (30_encoding.md R56). -/
def opnumDestpos : Nat → Option Nat
  | 1 => some 3
  | 2 => some 3
  | 3 => some 1
  | 7 => some 3
  | 8 => some 3
  | _ => none

/-- A sequence of accessor calls, `true` for `nextOutput` and `false` for `latestOutput`: the values the first returned, the values the second returned, each in call order, and the instance afterwards. -/
def drainOutputs : List Bool → State → List Word × List Word × State
  | [], s => ([], [], s)
  | true :: calls, s =>
    match nextOutput s with
    | .ok (w, s') => (w :: (drainOutputs calls s').1, (drainOutputs calls s').2.1, (drainOutputs calls s').2.2)
    | .error _ => drainOutputs calls s
  | false :: calls, s =>
    match latestOutput s with
    | .ok (w, s') => ((drainOutputs calls s').1, w :: (drainOutputs calls s').2.1, (drainOutputs calls s').2.2)
    | .error _ => drainOutputs calls s

/-- Nothing happens in a session but supplies and runs, and no cancellation is requested. -/
def suppliesAndResumes : List SessionEvent → Prop
  | [] => True
  | .goOn samples :: es => (∀ c ∈ samples, c = false) ∧ suppliesAndResumes es
  | .call (.supply _) :: es => suppliesAndResumes es
  | .call (.resume samples) :: es => (∀ c ∈ samples, c = false) ∧ suppliesAndResumes es
  | .call (.run samples) :: es => (∀ c ∈ samples, c = false) ∧ suppliesAndResumes es
  | .call .nextOutput :: _ => False
  | .call .latestOutput :: _ => False
  | .call (.inspect _) :: _ => False
  | .call .requestCancel :: _ => False

/-- The words an event supplies; a value outside the word range is refused (46_host_operations.md R104). -/
def SessionEvent.supplied : SessionEvent → List Word
  | .call (.supply v) => if FitsWord v then [wordOf v] else []
  | .call (.run _) => []
  | .call (.resume _) => []
  | .call .nextOutput => []
  | .call .latestOutput => []
  | .call (.inspect _) => []
  | .call .requestCancel => []
  | .goOn _ => []

/-- The words a session supplies, in order. -/
def suppliedWords (es : List SessionEvent) : List Word := es.flatMap SessionEvent.supplied

/-- The same instance built with SUSPEND = false, with `later` queued behind its inputs. -/
def State.upFront (s : State) (later : List Word) : State :=
  { s with config := { s.config with suspend := false }, inq := s.inq ++ later }

end Sys2Proof.Machine
end

