-- ==== Sys2Proof/Certificates/Slice0/Obligations.lean ====
section
/-! DEFINITION. The statements for the provers. Each docstring names the rule of spec/ it formalises, or says that it rests on a decision of the spec's own (92_eei_decisions.md) or on a choice of the model (notes/assumptions). -/

open Sys2Proof Sys2Proof.Machine

/-! ### Memory and the addressing unit -/

/-- 20_memory.md R31, whole: an in-range read gives `mem[addr]`; any other raises AddressFault naming the access. `memRead` answers no state, so no state changes. -/
def Obligations.MemReadGivesTheCellOrAddressFault : Prop :=
  ∀ (s : State) (access : Access) (a : Int),
    ((0 ≤ a ∧ a < s.mem.len) → memRead s access a = .ok (s.mem.get a.toNat)) ∧
    (¬ (0 ≤ a ∧ a < s.mem.len) → memRead s access a = .error (.addressFault a s.ip access))

/-- 20_memory.md R32, whole: an in-range write changes that cell and nothing else; any other raises AddressFault. Every in-range cell can be written. -/
def Obligations.MemWriteChangesExactlyOneCell : Prop :=
  ∀ (s : State) (a : Int) (v : Word),
    ((0 ≤ a ∧ a < s.mem.len) → ∃ s', memWrite s a v = .ok s' ∧
      s'.mem.get a.toNat = v ∧ (∀ x : Nat, (x : Int) ≠ a → s'.mem.get x = s.mem.get x) ∧
      s' = { s with mem := s'.mem } ∧ s'.mem.len = s.mem.len) ∧
    (¬ (0 ≤ a ∧ a < s.mem.len) → memWrite s a v = .error (.addressFault a s.ip .store))

/-- The model's canonical form (log entry 2): two canonical memories of one length that read alike are equal data. -/
def Obligations.CanonicalMemoriesReadingAlikeAreEqual : Prop :=
  ∀ m m' : Memory, m.wf = true → m'.wf = true → m.len = m'.len → (∀ a : Nat, m.get a = m'.get a) → m = m'

/-- 20_memory.md R36, whole: what `ReadOperand(k)` is in each mode, and each fault it raises. -/
def Obligations.ReadOperandResolvesByMode : Prop :=
  ∀ (s : State) (k : Nat) (p : Word), s.mem.get (s.ip + k) = p →
    (∀ m, s.mem.len ≤ s.ip + k → readOperand s k m = .error (.addressFault ((s.ip + k : Nat) : Int) s.ip .param)) ∧
    (s.ip + k < s.mem.len → readOperand s k .immediate = .ok p) ∧
    (s.ip + k < s.mem.len → 0 ≤ p.toInt → p.toInt < s.mem.len → readOperand s k .position = .ok (s.mem.get p.toInt.toNat)) ∧
    (s.ip + k < s.mem.len → ¬ (0 ≤ p.toInt ∧ p.toInt < s.mem.len) →
      readOperand s k .position = .error (.addressFault p.toInt s.ip .load))

/-- What `WriteTarget(k)` is (20_memory.md section 3). That the range is checked at resolution is the spec's own decision D10. -/
def Obligations.WriteTargetIsTheRawAddress : Prop :=
  ∀ (s : State) (k : Nat) (p : Word), s.mem.get (s.ip + k) = p →
    (s.mem.len ≤ s.ip + k → writeTarget s k = .error (.addressFault ((s.ip + k : Nat) : Int) s.ip .param)) ∧
    (s.ip + k < s.mem.len → 0 ≤ p.toInt → p.toInt < s.mem.len → writeTarget s k = .ok p.toInt) ∧
    (s.ip + k < s.mem.len → ¬ (0 ≤ p.toInt ∧ p.toInt < s.mem.len) →
      writeTarget s k = .error (.addressFault p.toInt s.ip .store))

/-- Fetch coherence (20_memory.md section 5, rule R46): after a write, every access of any kind sees it at once, and the instruction at the written cell is decoded from the new word. -/
def Obligations.AWriteIsSeenByTheNextAccess : Prop :=
  ∀ (s s' : State) (t : Int) (v : Word), memWrite s t v = .ok s' →
    (∀ access, memRead s' access t = .ok v) ∧
    (∀ access (x : Int), x ≠ t → memRead s' access x = memRead s access x) ∧
    (∀ i, decode v = .ok i → fetchInstr { s' with ip := t.toNat } = .ok i) ∧
    (∀ reason, decode v = .error reason → fetchInstr { s' with ip := t.toNat } = .error (.decodeFault t.toNat v reason))

/-! ### The decoder -/

/-- Decode and encode agree, both ways, over all 2^64 words: a word decodes to `i` exactly when `i` is well-formed and the word is its encoding (30_encoding.md rules R52 to R62; the refusals rest on decisions D7 to D9). -/
def Obligations.DecodeExactlyInvertsEncode : Prop :=
  ∀ (w : Word) (i : Instr), decode w = .ok i ↔ i.WellFormed = true ∧ encode i = w

/-- The 28 legal instruction words and no others (30_encoding.md section 2, rule R57, which the spec derives). -/
def Obligations.ExactlyTwentyEightWordsAreLegal : Prop :=
  ∀ w : Word, (∃ i, decode w = .ok i) ↔
    w.toInt ∈ ([1, 101, 1001, 1101, 2, 102, 1002, 1102, 3, 4, 104, 5, 105, 1005, 1105, 6, 106, 1006, 1106,
      7, 107, 1007, 1107, 8, 108, 1008, 1108, 99] : List Int)

/-- 30_encoding.md R58: an opcode number outside the table stops execution with the diagnostic that holds the word and the instruction pointer. -/
def Obligations.UnknownOpcodeNumberRaisesBadOpcode : Prop :=
  ∀ s : State, s.status = .running → s.ip < s.mem.len → 0 ≤ (s.mem.get s.ip).toInt →
    (s.mem.get s.ip).toInt % 100 ∉ ([1, 2, 3, 4, 5, 6, 7, 8, 99] : List Int) →
    decode (s.mem.get s.ip) = .error .badOpcode ∧
    step s = .next { s with status := .faulted, fault := some (.decodeFault s.ip (s.mem.get s.ip) .badOpcode) }

/-- 30_encoding.md R54 and R59: a mode digit of a parameter that is not 0 or 1 is the fatal decode fault BadMode, with the lowest such parameter and its digit. -/
def Obligations.BadModeDigitNamesTheLowestParameter : Prop :=
  ∀ (s : State) (n k : Nat), s.status = .running → s.ip < s.mem.len → 0 ≤ (s.mem.get s.ip).toInt →
    opnumArity ((s.mem.get s.ip).toInt.toNat % 100) = some n → 1 ≤ k → k ≤ n →
    (∀ j, 1 ≤ j → j < k → dig (s.mem.get s.ip).toInt.toNat (j + 1) ≤ 1) → 1 < dig (s.mem.get s.ip).toInt.toNat (k + 1) →
    decode (s.mem.get s.ip) = .error (.badMode k (dig (s.mem.get s.ip).toInt.toNat (k + 1))) ∧
    step s = .next { s with status := .faulted, fault := some (.decodeFault s.ip (s.mem.get s.ip)
      (.badMode k (dig (s.mem.get s.ip).toInt.toNat (k + 1)))) }

/-- The other three refusals of the decoder, which are the spec's own decisions D7 (negative), D9 (immediate destination) and D8 (excess digits). -/
def Obligations.NegativeImmediateDestAndExcessDigitsAreRefused : Prop :=
  (∀ w : Word, w.toInt < 0 → decode w = .error .badOpcode) ∧
  (∀ (w : Word) (k : Nat), 0 ≤ w.toInt → opnumDestpos (w.toInt.toNat % 100) = some k →
    (∀ j, 1 ≤ j → j < k → dig w.toInt.toNat (j + 1) ≤ 1) → dig w.toInt.toNat (k + 1) = 1 →
    decode w = .error (.immediateDest k)) ∧
  (∀ (w : Word) (n : Nat), 0 ≤ w.toInt → opnumArity (w.toInt.toNat % 100) = some n →
    (∀ j, 1 ≤ j → j ≤ n → dig w.toInt.toNat (j + 1) ≤ 1) →
    (∀ k, opnumDestpos (w.toInt.toNat % 100) = some k → dig w.toInt.toNat (k + 1) = 0) →
    w.toInt.toNat / 10 ^ (n + 2) ≠ 0 → decode w = .error .excessDigits)

/-- A few words spelled from the digit table (30_encoding.md rules R52, R53), one a family. -/
def Obligations.SpelledWordsDecode : Prop :=
  decode 1002 = .ok (.mul .position .immediate .position) ∧ decode 3 = .ok (.input .position) ∧
  decode 104 = .ok (.output .immediate) ∧ decode 105 = .ok (.jt .immediate .position) ∧
  decode 1107 = .ok (.lt .immediate .immediate .position) ∧ decode 99 = .ok .halt ∧
  decode 204 = .error (.badMode 1 2) ∧ decode 11101 = .error (.immediateDest 3) ∧ decode 1004 = .error .excessDigits ∧
  decode 42 = .error .badOpcode ∧ decode (-99) = .error .badOpcode

/-- The machine-readable table says what the decoder says (30_encoding.md rule R154, which the spec derives): the rows are disjoint, a word decodes exactly when it matches a row, and that row has the instruction's own columns. -/
def Obligations.OpcodeTableAgreesWithTheDecoder : Prop :=
  (∀ w : Word, (∃ i, decode w = .ok i) ↔ ∃ r ∈ opcodeTable, r.matchesWord w = true) ∧
  (∀ (w : Word) (i : Instr), decode w = .ok i → ∀ r ∈ opcodeTable, r.matchesWord w = true →
    r.mnemonic = i.mnemonic ∧ r.opnum = i.opnum ∧ r.arity = i.arity ∧ r.width = i.width ∧ r.destpos = i.destpos) ∧
  opcodeTable.Pairwise (fun r r' => ∀ w : Word, ¬ (r.matchesWord w = true ∧ r'.matchesWord w = true))

/-- An assembled instruction is fetched and its parameters read as written, wherever it stands in the program (30_encoding.md rules R67, R68; the notation is decision D22). -/
def Obligations.AnAssembledInstructionIsFetchedAsWritten : Prop :=
  ∀ (config : Config) (before after : List AsmLine) (i : Instr) (params I : List Word), i.WellFormed = true →
    let s := { State.ofImage config (assemble (before ++ .instr i params :: after)) I with ip := (assemble before).length }
    fetchInstr s = .ok i ∧ ∀ (k : Nat) (h : k < params.length), param s (k + 1) = .ok params[k]

/-! ### The step -/

/-- A step runs the decoded instruction (40_execution_engine.md rule R73): nothing stands around `exec`, and the width and effect are fixed by this decode (R77). -/
def Obligations.StepRunsTheDecodedInstruction : Prop :=
  ∀ (s : State) (i : Instr), s.status = .running → s.ip < s.mem.len → decode (s.mem.get s.ip) = .ok i → step s = exec i s

/-- A step is taken when `status` is `Running`, and only then. 40_execution_engine.md R71 says the second half; that every Running machine's step has a next state rests on 93_implementation_defined.md U22, on 70_reset_and_hazards.md R153, which the spec derives, and on log entry 6 (DEDUCED), which makes a raised fault a next state. -/
def Obligations.StepIsTakenExactlyWhenRunning : Prop :=
  ∀ s : State, (s.status = .running → ∃ s', step s = .next s') ∧ (s.status ≠ .running → ∀ s', step s ≠ .next s')

/-- Running off the end (40_execution_engine.md rule R75, which the spec derives): the fetch raises AddressFault and nothing else changes. -/
def Obligations.FetchOutOfRangeRaisesAddressFault : Prop :=
  ∀ s : State, s.status = .running → s.mem.len ≤ s.ip →
    step s = .next { s with status := .faulted, fault := some (.addressFault (s.ip : Int) s.ip .fetch) }

/-- A DecodeFault is raised when, and only when, the decode of the opcode cell fails (60_exceptions.md rule R121; its `reason` field is the spec's own decision D15). -/
def Obligations.DecodeFaultExactlyWhenDecodeFails : Prop :=
  ∀ (s : State) (raw : Word) (reason : DecodeReason), s.status = .running →
    (step s = .next { s with status := .faulted, fault := some (.decodeFault s.ip raw reason) } ↔
      s.ip < s.mem.len ∧ s.mem.get s.ip = raw ∧ decode raw = .error reason)

/-- The trap entry `raise` (60_exceptions.md rule R127, decisions D11 and D14). -/
def Obligations.RaiseStoresTheRecordAndNothingElse : Prop :=
  ∀ (s : State) (f : FaultRecord),
    (raise s f).fault = some f ∧ (raise s f).status = .faulted ∧
    (raise s f).mem = s.mem ∧ (raise s f).ip = s.ip ∧ (raise s f).inq = s.inq ∧ (raise s f).outq = s.outq ∧
    (raise s f).config = s.config

/-- Status transitions and precise faults (40_execution_engine.md rule R78 with 60_exceptions.md rule R128; decisions D14 and D11): a step keeps the machine running, or halts it at a `halt` and changes nothing else, or raises one record that names the instruction and changes nothing else. -/
def Obligations.EveryStepCommitsHaltsOrRaisesPrecisely : Prop :=
  ∀ s s' : State, step s = .next s' →
    s.status = .running ∧
    ((s'.status = .running ∧ s'.fault = s.fault) ∨
      (fetchInstr s = .ok .halt ∧ s' = { s with status := .halted }) ∨
      (∃ f : FaultRecord, f.ip = s.ip ∧ s' = { s with status := .faulted, fault := some f }))

/-- 40_execution_engine.md R74: how `ip` moves, for every instruction: by its width, to the target of a taken jump, or not at all for `halt`, for a raised fault and for an `in` that returns NeedsInput. -/
def Obligations.IpMovesByWidthOrToTheTarget : Prop :=
  ∀ (i : Instr) (s s' : State), s.status = .running → exec i s = .next s' →
    (s'.status = .faulted → s'.ip = s.ip) ∧
    (s'.status ≠ .faulted →
      match i with
      | .add _ _ _ => s'.ip = s.ip + 4
      | .mul _ _ _ => s'.ip = s.ip + 4
      | .lt _ _ _ => s'.ip = s.ip + 4
      | .eq _ _ _ => s'.ip = s.ip + 4
      | .input _ => (s.inq ≠ [] ∧ s'.ip = s.ip + 2) ∨ (s.inq = [] ∧ s.config.suspend = true ∧ s'.ip = s.ip)
      | .output _ => s'.ip = s.ip + 2
      | .jt m1 m2 => ∃ c t, readOperand s 1 m1 = .ok c ∧ readOperand s 2 m2 = .ok t ∧
          (c.toInt ≠ 0 → (s'.ip : Int) = t.toInt) ∧ (c.toInt = 0 → s'.ip = s.ip + 3)
      | .jf m1 m2 => ∃ c t, readOperand s 1 m1 = .ok c ∧ readOperand s 2 m2 = .ok t ∧
          (c.toInt = 0 → (s'.ip : Int) = t.toInt) ∧ (c.toInt ≠ 0 → s'.ip = s.ip + 3)
      | .halt => s'.ip = s.ip)

/-- What a step may write (40_execution_engine.md rules R76 and R84, which rest on decision D11): memory only at the destination its decoded instruction resolves to, and only if it has one; the front of `inq` only by `in`, whose value is the one stored; the back of `outq` only by `out`, whose value is its operand. -/
def Obligations.AStepWritesOnlyWhatItsInstructionNames : Prop :=
  ∀ (s s' : State) (i : Instr), fetchInstr s = .ok i → step s = .next s' →
    (i.destpos = none → s'.mem = s.mem) ∧
    (∀ k t, i.destpos = some k → writeTarget s k = .ok t → ∀ x : Nat, (x : Int) ≠ t → s'.mem.get x = s.mem.get x) ∧
    (∀ k f, i.destpos = some k → writeTarget s k = .error f → s'.mem = s.mem) ∧
    (s'.inq = s.inq ∨ ∃ m v t, i = .input m ∧ s.inq = v :: s'.inq ∧ writeTarget s 1 = .ok t ∧ s'.mem.get t.toNat = v) ∧
    (s'.outq = s.outq ∨ ∃ m a, i = .output m ∧ readOperand s 1 m = .ok a ∧ s'.outq = s.outq ++ [a])

/-! ### The instructions -/

/-- `add` and its result in the word range (41_arithmetic.md rules R85, R86; the width is decision D1): the exact sum is stored, for every mode of every operand, and nothing else changes. -/
def Obligations.AddStoresTheExactSum : Prop :=
  ∀ (s : State) (m1 m2 m3 : Mode) (a b : Word) (t : Int),
    readOperand s 1 m1 = .ok a → readOperand s 2 m2 = .ok b → writeTarget s 3 = .ok t →
    wordMin ≤ a.toInt + b.toInt → a.toInt + b.toInt ≤ wordMax →
    ∃ s', exec (.add m1 m2 m3) s = .next s' ∧ s.StoresOne s' t (a.toInt + b.toInt) 4 ∧ s'.inq = s.inq

/-- `mul` and its result in the word range (41_arithmetic.md rules R85, R87; decision D1). -/
def Obligations.MulStoresTheExactProduct : Prop :=
  ∀ (s : State) (m1 m2 m3 : Mode) (a b : Word) (t : Int),
    readOperand s 1 m1 = .ok a → readOperand s 2 m2 = .ok b → writeTarget s 3 = .ok t →
    wordMin ≤ a.toInt * b.toInt → a.toInt * b.toInt ≤ wordMax →
    ∃ s', exec (.mul m1 m2 m3) s = .next s' ∧ s.StoresOne s' t (a.toInt * b.toInt) 4 ∧ s'.inq = s.inq

/-- `add` and `mul` with the exact result outside the word range, under OVERFLOW = fault: ArithmeticFault with the two operands, and nothing written (41_arithmetic.md section 1, 60_exceptions.md section 1; decision D2). -/
def Obligations.ArithmeticOutOfRangeRaises : Prop :=
  ∀ (s : State) (m1 m2 m3 : Mode) (a b : Word) (t : Int), s.config.overflow = .fault →
    readOperand s 1 m1 = .ok a → readOperand s 2 m2 = .ok b → writeTarget s 3 = .ok t →
    (¬ (wordMin ≤ a.toInt + b.toInt ∧ a.toInt + b.toInt ≤ wordMax) →
      exec (.add m1 m2 m3) s = .next { s with status := .faulted, fault := some (.arithmeticFault s.ip .add a b) }) ∧
    (¬ (wordMin ≤ a.toInt * b.toInt ∧ a.toInt * b.toInt ≤ wordMax) →
      exec (.mul m1 m2 m3) s = .next { s with status := .faulted, fault := some (.arithmeticFault s.ip .mul a b) })

/-- `add` and `mul` under OVERFLOW = wrap (41_arithmetic.md section 1; decision D2): the stored word lies in the word range and is congruent to the exact result modulo 2^64. -/
def Obligations.ArithmeticWrapsModuloTheWordSize : Prop :=
  ∀ (s : State) (m1 m2 m3 : Mode) (a b : Word) (t : Int), s.config.overflow = .wrap →
    readOperand s 1 m1 = .ok a → readOperand s 2 m2 = .ok b → writeTarget s 3 = .ok t →
    (∃ s' v, exec (.add m1 m2 m3) s = .next s' ∧ s.StoresOne s' t v 4 ∧ s'.inq = s.inq ∧
      wordMin ≤ v ∧ v ≤ wordMax ∧ v % 2 ^ 64 = (a.toInt + b.toInt) % 2 ^ 64) ∧
    (∃ s' v, exec (.mul m1 m2 m3) s = .next s' ∧ s.StoresOne s' t v 4 ∧ s'.inq = s.inq ∧
      wordMin ≤ v ∧ v ≤ wordMax ∧ v % 2 ^ 64 = (a.toInt * b.toInt) % 2 ^ 64)

/-- 44_compare.md R99 and R100: `lt` stores exactly 1 or 0 by the signed order, `eq` by equality of the integers; neither depends on OVERFLOW, and nothing else changes. -/
def Obligations.ComparisonsStoreExactlyOneOrZero : Prop :=
  ∀ (s : State) (m1 m2 m3 : Mode) (a b : Word) (t : Int),
    readOperand s 1 m1 = .ok a → readOperand s 2 m2 = .ok b → writeTarget s 3 = .ok t →
    (∃ s', exec (.lt m1 m2 m3) s = .next s' ∧ s.StoresOne s' t (if a.toInt < b.toInt then 1 else 0) 4 ∧ s'.inq = s.inq) ∧
    (∃ s', exec (.eq m1 m2 m3) s = .next s' ∧ s.StoresOne s' t (if a.toInt = b.toInt then 1 else 0) 4 ∧ s'.inq = s.inq)

/-- `in` with a value waiting (42_io.md rule R89; that the destination comes before the queue is decision D10): the oldest value is stored, whatever it is, the rest stay queued in order, under either value of SUSPEND. -/
def Obligations.InStoresTheOldestInput : Prop :=
  ∀ (s : State) (m1 : Mode) (t : Int) (v : Word) (rest : List Word),
    writeTarget s 1 = .ok t → s.inq = v :: rest →
    ∃ s', exec (.input m1) s = .next s' ∧ s.StoresOne s' t v.toInt 2 ∧ s'.inq = rest

/-- `in` on an empty queue (42_io.md rule R89; decision D3): InputStarvation with SUSPEND = false; with SUSPEND = true nothing at all changes and the reply is NeedsInput. -/
def Obligations.InOnAnEmptyQueueStarvesOrWaits : Prop :=
  ∀ (s : State) (m1 : Mode) (t : Int), writeTarget s 1 = .ok t → s.inq = [] →
    (s.config.suspend = false →
      exec (.input m1) s = .next { s with status := .faulted, fault := some (.inputStarvation s.ip) }) ∧
    (s.config.suspend = true → exec (.input m1) s = .next s) ∧
    (s.config.suspend = true → s.status = .running → fetchInstr s = .ok (.input m1) → stepReply s s = .needsInput)

/-- 42_io.md R90, whole: the words, the effect, the faults in order, and the reply of `out`, which the run controller ignores with SUSPEND = false and hands to the host with SUSPEND = true. -/
def Obligations.OutAppendsItsOperand : Prop :=
  (∀ (w : Word) (m : Mode), decode w = .ok (.output m) ↔ (w.toInt = 4 ∧ m = .position) ∨ (w.toInt = 104 ∧ m = .immediate)) ∧
  (∀ (s : State) (m : Mode) (a : Word), readOperand s 1 m = .ok a →
    exec (.output m) s = .next { s with outq := s.outq ++ [a], ip := s.ip + 2 }) ∧
  (∀ (s : State) (m : Mode) (f : FaultRecord), readOperand s 1 m = .error f →
    exec (.output m) s = .next { s with status := .faulted, fault := some f }) ∧
  (∀ (s s' : State) (m : Mode), s.status = .running → fetchInstr s = .ok (.output m) → step s = .next s' →
    (∃ a, readOperand s 1 m = .ok a) → stepReply s s' = .outputProduced) ∧
  (∀ (s s' : State) (m : Mode) (a : Word) (samples : List Bool), s.status = .running → fetchInstr s = .ok (.output m) →
    readOperand s 1 m = .ok a → step s = .next s' →
    (s.config.suspend = false → runLoop (false :: samples) s = runLoop samples s') ∧
    (s.config.suspend = true → runLoop (false :: samples) s = (some .outputProduced, s')))

/-- `jt` (43_jumps.md rules R93, R95, R96; the time of the range check and of the resolution are decisions D12 and D13): both operands resolve, then a condition that is not zero goes to an in-range target and a zero one falls through whatever the target's value. -/
def Obligations.JtJumpsWhenNotZero : Prop :=
  ∀ (s : State) (m1 m2 : Mode) (c t : Word), readOperand s 1 m1 = .ok c → readOperand s 2 m2 = .ok t →
    (c.toInt ≠ 0 → 0 ≤ t.toInt → t.toInt < s.mem.len → exec (.jt m1 m2) s = .next { s with ip := t.toInt.toNat }) ∧
    (c.toInt ≠ 0 → ¬ (0 ≤ t.toInt ∧ t.toInt < s.mem.len) →
      exec (.jt m1 m2) s = .next { s with status := .faulted, fault := some (.addressFault t.toInt s.ip .jump) }) ∧
    (c.toInt = 0 → exec (.jt m1 m2) s = .next { s with ip := s.ip + 3 })

/-- `jf` (43_jumps.md rules R94 to R96; decisions D12 and D13): the complement of `jt`. -/
def Obligations.JfJumpsWhenZero : Prop :=
  ∀ (s : State) (m1 m2 : Mode) (c t : Word), readOperand s 1 m1 = .ok c → readOperand s 2 m2 = .ok t →
    (c.toInt = 0 → 0 ≤ t.toInt → t.toInt < s.mem.len → exec (.jf m1 m2) s = .next { s with ip := t.toInt.toNat }) ∧
    (c.toInt = 0 → ¬ (0 ≤ t.toInt ∧ t.toInt < s.mem.len) →
      exec (.jf m1 m2) s = .next { s with status := .faulted, fault := some (.addressFault t.toInt s.ip .jump) }) ∧
    (c.toInt ≠ 0 → exec (.jf m1 m2) s = .next { s with ip := s.ip + 3 })

/-- 45_halt.md R101: the one word of `halt`, and its effect: the status and nothing else, in every state, so it has no fault of its own; it replies Done and the run returns `Halted`. -/
def Obligations.HaltSetsTheStatusOnly : Prop :=
  (∀ w : Word, decode w = .ok .halt ↔ w.toInt = 99) ∧
  (∀ s : State, exec .halt s = .next { s with status := .halted }) ∧
  (∀ s : State, s.status = .running → fetchInstr s = .ok .halt → step s = .next { s with status := .halted }) ∧
  (∀ s s' : State, fetchInstr s = .ok .halt → stepReply s s' = .done) ∧
  (∀ (s : State) (samples : List Bool), s.status = .running → fetchInstr s = .ok .halt →
    runLoop (false :: samples) s = (some .halted, { s with status := .halted }))

/-- The order of the operand checks (60_exceptions.md section 2, decisions D10 and D13), for every instruction that has parameters: the first failing check is the one raised, and nothing is consumed, written or appended. -/
def Obligations.TheFirstFailingOperandCheckIsRaised : Prop :=
  (∀ m1 m2 m3 : Mode, RaisesFirstOperandFault3 (exec (.add m1 m2 m3)) m1 m2 ∧ RaisesFirstOperandFault3 (exec (.mul m1 m2 m3)) m1 m2 ∧
    RaisesFirstOperandFault3 (exec (.lt m1 m2 m3)) m1 m2 ∧ RaisesFirstOperandFault3 (exec (.eq m1 m2 m3)) m1 m2) ∧
  (∀ m1 m2 : Mode, RaisesFirstOperandFault2 (exec (.jt m1 m2)) m1 m2 (fun c => c.toInt ≠ 0) ∧
    RaisesFirstOperandFault2 (exec (.jf m1 m2)) m1 m2 (fun c => c.toInt = 0)) ∧
  (∀ (m : Mode) (s : State) (f : FaultRecord), readOperand s 1 m = .error f → exec (.output m) s = .next (raise s f)) ∧
  (∀ (m : Mode) (s : State) (f : FaultRecord), writeTarget s 1 = .error f → exec (.input m) s = .next (raise s f))

/-! ### Invariants -/

/-- The reset state is the spec's reset state for the empty image (10_state.md section 4; that the image is empty is the model's choice, log entry 1), meets the invariant (its canonical memory is the model's own, log entry 2), and its first step raises AddressFault at address 0 (decision D26). -/
def Obligations.ResetMeetsTheInvariant : Prop :=
  State.reset = State.ofImage Config.thisHardware [] [] ∧ State.reset.Inv ∧
  step State.reset = .next { State.reset with status := .faulted, fault := some (.addressFault 0 0 .fetch) }

/-- Every step keeps the invariant, from every state that meets it. Its canonical memory is the model's own (log entry 2, DESIGN CHOICE); `LEN` in its bound and `ip` at most `LEN` + 3 rest on decision D17 and on 40_execution_engine.md R75, which the spec derives; a record exactly when faulted rests on decision D14, and its naming `ip` on decision D11; that a halted machine stands at a 99 is 45_halt.md R101. -/
def Obligations.EveryStepKeepsTheInvariant : Prop :=
  ∀ s s' : State, s.Inv → step s = .next s' → s'.Inv

/-- Every host operation keeps the invariant, and every instance the host can build and use meets it, in any sequence of operations and runs (46_host_operations.md rules R103 to R114). What the invariant rests on is said above: its canonical memory is the model's own (log entry 2, DESIGN CHOICE). -/
def Obligations.EveryReachableInstanceMeetsTheInvariant : Prop :=
  (∀ (s : State) (c : HostCall), s.Inv → (hostCall c s).2.Inv) ∧
  (∀ (config : Config) (P I : List Int) (s : State) (events : List SessionEvent) (x : Session),
    construct config P I = .ok s → hostSession events (.idle s) = some x → x.machine.Inv)

/-- `LEN` and the other parameters do not change after construction (10_state.md section 1), whatever steps and host operations follow. -/
def Obligations.LenAndParametersNeverChange : Prop :=
  (∀ s s' : State, step s = .next s' → s'.mem.len = s.mem.len ∧ s'.config = s.config) ∧
  (∀ (x x' : Session) (events : List SessionEvent), hostSession events x = some x' →
    x'.machine.mem.len = x.machine.mem.len ∧ x'.machine.config = x.machine.config)

/-! ### The host -/

/-- Construction (46_host_operations.md rule R103, 10_state.md rule R27; decisions D6, D17, D24): the reset state of the image, and a refusal of any other arguments. -/
def Obligations.ConstructGivesTheResetState : Prop :=
  ∀ (config : Config) (P I : List Int),
    ((∀ v ∈ P, FitsWord v) → (∀ v ∈ I, FitsWord v) → P.length ≤ maxLen →
      ∃ s, construct config P I = .ok s ∧ s.mem.len = P.length ∧
        (∀ (a : Nat) (h : a < P.length), (s.mem.get a).toInt = P[a]) ∧ s.ip = 0 ∧ s.status = .running ∧ s.fault = none ∧
        s.inq.map BitVec.toInt = I ∧ s.outq = [] ∧ s.config = config) ∧
    (((∃ v ∈ P, ¬ FitsWord v) ∨ (∃ v ∈ I, ¬ FitsWord v) ∨ maxLen < P.length) → ∃ e, construct config P I = .error e)

/-- Giving initial inputs is constructing without any and then supplying each in order (46_host_operations.md rule R103, 90_conflicts.md C3). -/
def Obligations.InitialInputsEqualSupplies : Prop :=
  ∀ (config : Config) (P I : List Int) (s s0 : State),
    construct config P I = .ok s → construct config P [] = .ok s0 →
      hostSession (I.map (fun v => .call (.supply v))) (.idle s0) = some (.idle s)

/-- `supply` (46_host_operations.md rule R104; the refusal is decision D24): the value goes to the back of `inq`, in any status, and nothing else changes. -/
def Obligations.SupplyAppendsToTheInputQueue : Prop :=
  ∀ (s : State) (v : Int),
    (FitsWord v → ∃ w : Word, w.toInt = v ∧ hostCall (.supply v) s = (.nothing, { s with inq := s.inq ++ [w] })) ∧
    (¬ FitsWord v → ∃ e, hostCall (.supply v) s = (.error e, s))

/-- 46_host_operations.md R108, whole. -/
def Obligations.NextOutputRemovesTheOldest : Prop :=
  ∀ s : State,
    (∀ v rest, s.outq = v :: rest → nextOutput s = .ok (v, { s with outq := rest })) ∧
    (s.outq = [] → nextOutput s = .error .outputUnderflow ∧ (hostCall .nextOutput s).2 = s)

/-- 46_host_operations.md R109, whole. -/
def Obligations.LatestOutputRemovesTheNewest : Prop :=
  ∀ s : State,
    (∀ front v, s.outq = front ++ [v] → latestOutput s = .ok (v, { s with outq := front })) ∧
    (s.outq = [] → latestOutput s = .error .outputUnderflow ∧ (hostCall .latestOutput s).2 = s)

/-- 46_host_operations.md R110: over any sequence of accessor calls no value is lost or returned twice: what `nextOutput` returned, then what is left, then what `latestOutput` returned read backwards, is the collection at the start; nothing but `outq` changed. -/
def Obligations.OutputsAreNeitherLostNorReturnedTwice : Prop :=
  ∀ (calls : List Bool) (s : State),
    s.outq = (drainOutputs calls s).1 ++ (drainOutputs calls s).2.2.outq ++ (drainOutputs calls s).2.1.reverse ∧
    (drainOutputs calls s).2.2 = { s with outq := (drainOutputs calls s).2.2.outq }

/-- `inspect` (46_host_operations.md rule R111; the error is decision D20): the cell, or InspectRange; the instance is untouched, in any status. -/
def Obligations.InspectReadsWithoutTouching : Prop :=
  ∀ (s : State) (a : Int),
    ((0 ≤ a ∧ a < s.mem.len) → hostCall (.inspect a) s = (.value (s.mem.get a.toNat), s)) ∧
    (¬ (0 ≤ a ∧ a < s.mem.len) → hostCall (.inspect a) s = (.error .inspectRange, s))

/-- What the host cannot do (46_host_operations.md section 7, rule R115): no operation but a run writes `mem`, `ip`, `status` or `fault`, and none reorders or removes queued inputs. -/
def Obligations.HostOperationsOnlyTouchTheQueues : Prop :=
  ∀ (c : HostCall) (s : State), (∀ samples, c ≠ .run samples ∧ c ≠ .resume samples) →
    (hostCall c s).2.mem = s.mem ∧ (hostCall c s).2.ip = s.ip ∧ (hostCall c s).2.status = s.status ∧
    (hostCall c s).2.fault = s.fault ∧ s.inq <+: (hostCall c s).2.inq ∧ (hostCall c s).2.outq <:+: s.outq

/-! ### The run controller -/

/-- `run` and `resume` on a terminal machine (46_host_operations.md section 7, 40_execution_engine.md section 3; decision D21): the result at once, and no state change. -/
def Obligations.TerminalMachinesReturnAtOnce : Prop :=
  ∀ (s : State) (samples : List Bool),
    (s.status = .halted → hostCall (.run samples) s = (.ended (some .halted), s) ∧
      hostCall (.resume samples) s = (.ended (some .halted), s)) ∧
    (s.status = .faulted → hostCall (.run samples) s = (.ended (some (.failed s.fault)), s) ∧
      hostCall (.resume samples) s = (.ended (some (.failed s.fault)), s))

/-- The results of a run match the state it leaves (46_host_operations.md rule R107; the suspending results are decision D25): OutputProduced and NeedsInput only with SUSPEND = true. -/
def Obligations.RunResultsMatchTheState : Prop :=
  ∀ (samples : List Bool) (s s' : State) (r : RunResult), runLoop samples s = (some r, s') →
    match r with
    | .halted => s'.status = .halted
    | .failed f => s'.status = .faulted ∧ s'.fault = f
    | .cancelled => s'.status = .running ∧ true ∈ samples
    | .outputProduced => s.config.suspend = true ∧ s'.status = .running ∧ s'.outq ≠ []
    | .needsInput => s.config.suspend = true ∧ s'.status = .running ∧ s'.inq = [] ∧
        ∃ m t, fetchInstr s' = .ok (.input m) ∧ writeTarget s' 1 = .ok t

/-- Cancellation (40_execution_engine.md section 3; decision D18): a cancelled run is a prefix of the uncancelled one, changes nothing by being cancelled, and can be resumed where it stood. -/
def Obligations.ACancelledRunIsAResumablePrefix : Prop :=
  ∀ (n : Nat) (s s' : State) (more : List Bool), runLoop (List.replicate n false) s = (none, s') →
    s'.status = .running ∧ runLoop (List.replicate n false ++ true :: more) s = (some .cancelled, s') ∧
    runLoop (List.replicate n false ++ more) s = runLoop more s'

/-- A run with SUSPEND = false that is not cancelled ends only at `Halted` or `Faulted`, and it does not stop early: while the machine is running it takes the step and goes on from there, whatever the instruction (40_execution_engine.md section 3, rule R79). -/
def Obligations.AMinimalRunEndsOnlyAtHaltOrFault : Prop :=
  (∀ (n : Nat) (s s' : State) (result : Option RunResult), s.config.suspend = false →
    runLoop (List.replicate n false) s = (result, s') →
    (result = none ∧ s'.status = .running) ∨ (result = some .halted ∧ s'.status = .halted) ∨
      (result = some (.failed s'.fault) ∧ s'.status = .faulted)) ∧
  (∀ (s s' : State) (samples : List Bool), s.status = .running → s.config.suspend = false → step s = .next s' →
    runLoop (false :: samples) s = runLoop samples s')

/-- Nothing the host has done to the output collection reaches the program (42_io.md section on R91): a step's effect and what it appends are the same whatever `outq` holds. -/
def Obligations.OutputsDoNotInfluenceTheProgram : Prop :=
  ∀ s s' : State, step s = .next s' → ∃ produced : List Word, produced.length ≤ 1 ∧
    ∀ o : List Word, step { s with outq := o } = .next { s' with outq := o ++ produced }

/-- Suspension does not change single-machine semantics, step by step (40_execution_engine.md section 3; decisions D3 and D25): a step with SUSPEND = true that does not wait is the step with SUSPEND = false and any later inputs already queued. -/
def Obligations.ASuspendingStepMatchesTheUpFrontStep : Prop :=
  ∀ (s s' : State) (later : List Word), s.config.suspend = true → step s = .next s' → stepReply s s' ≠ .needsInput →
    step (s.upFront later) = .next (s'.upFront later)

/-- Suspension does not change single-machine semantics, over whole sessions (40_execution_engine.md section 3; decisions D3 and D25): supplying and resuming in any pattern with SUSPEND = true reaches a state that one run with SUSPEND = false reaches when the same inputs are supplied, in the same order, up front. -/
def Obligations.AnInteractiveSessionMatchesAnUpFrontRun : Prop :=
  ∀ (s : State) (events : List SessionEvent) (x : Session), s.config.suspend = true → suppliesAndResumes events →
    hostSession events (.idle s) = some x →
    ∃ n : Nat, (runLoop (List.replicate n false) (s.upFront (suppliedWords events))).2 = x.machine.upFront []

/-! ### Placing an instruction -/

/-- An instruction placed by `withFetchWord` is the one the next step fetches and runs, and placing it keeps memory canonical (the model's own load and form, log entries 1, 2 and 10). -/
def Obligations.APlacedInstructionIsTheNextOneRun : Prop :=
  ∀ (s : State) (nbits w : Nat) (i : Instr), decodeTableWord nbits w = some i →
    fetchInstr (s.withFetchWord nbits w) = .ok i ∧ step (s.withFetchWord nbits w) = exec i (s.withFetchWord nbits w) ∧
    (s.mem.wf = true → (s.withFetchWord nbits w).mem.wf = true)

/-! ### One thread of control -/

/-- Host operations and steps form one sequence (46_host_operations.md rule R114, 93_implementation_defined.md U18): every operation can be made on an instance that no run is driving; while a run is in progress the only one that can is a cancellation request, which ends the run at once and changes nothing; a run is in progress exactly while it has not returned, and then the machine is running; and a run that is watched in parts is the one run. -/
def Obligations.TheHostWaitsForARunToReturn : Prop :=
  (∀ (s : State) (c : HostCall), ∃ x, (Session.idle s).next (.call c) = some ((hostCall c s).1, x) ∧ x.machine = (hostCall c s).2) ∧
  (∀ (x : Session) (c : HostCall), x.inRun = true → c ≠ .requestCancel → x.next (.call c) = none) ∧
  (∀ x : Session, x.inRun = true → x.machine.status = .running →
    x.next (.call .requestCancel) = some (.ended (some .cancelled), .idle x.machine)) ∧
  (∀ (s : State) (samples : List Bool), (Session.idle s).next (.goOn samples) = none) ∧
  (∀ (x x' : Session) (e : SessionEvent) (reply : HostReply), x.next e = some (reply, x') →
    (x'.inRun = true ↔ reply = .ended none) ∧ (x'.inRun = true → x'.machine.status = .running)) ∧
  (∀ (s : State) (x : Session) (first more : List Bool), (Session.idle s).next (.call (.run first)) = some (.ended none, x) →
    x.next (.goOn more) = (Session.idle s).next (.call (.run (first ++ more))))

/-- The run controller with SUSPEND = true (40_execution_engine.md rule R80; decisions D3 and D25): what each step replies, and what the controller does with it: it goes on after Done, hands back OutputProduced after the `out` committed, and hands back NeedsInput with nothing changed. -/
def Obligations.ASuspendingRunHandsBackAtOutputsAndWaits : Prop :=
  ∀ (s s' : State) (samples : List Bool), s.status = .running → s.config.suspend = true → step s = .next s' →
    (stepReply s s' = .outputProduced ↔ ∃ m a, fetchInstr s = .ok (.output m) ∧ readOperand s 1 m = .ok a) ∧
    (stepReply s s' = .needsInput ↔ s.inq = [] ∧ ∃ m t, fetchInstr s = .ok (.input m) ∧ writeTarget s 1 = .ok t) ∧
    (stepReply s s' = .done → runLoop (false :: samples) s = runLoop samples s') ∧
    (stepReply s s' = .outputProduced → runLoop (false :: samples) s = (some .outputProduced, s')) ∧
    (stepReply s s' = .needsInput → s' = s ∧ runLoop (false :: samples) s = (some .needsInput, s))
end

