-- ==== Sys2Proof/Laws/Decode.lean ====
section
/-! SUPPORT. What the decoder's digit checks answer (30_encoding.md R52, R59, R61, R62), and the size of an encoded word. -/

namespace Sys2Proof

theorem Mode.digit_le (m : Mode) : m.digit ≤ 1 := by cases m <;> decide

theorem sourceMode_eq_ok {m k : Nat} {md : Mode} : sourceMode m k = .ok md ↔ dig m (k - 1) = md.digit := by
  unfold sourceMode
  split
  · rename_i h; cases md <;> simp [h, Mode.digit]
  · rename_i h; cases md <;> simp [h, Mode.digit]
  · rename_i h0 h1
    replace h0 : dig m (k - 1) ≠ 0 := h0
    replace h1 : dig m (k - 1) ≠ 1 := h1
    cases md <;> simp [Mode.digit, h0, h1]

theorem sourceMode_eq_error {m k : Nat} {r : DecodeReason} :
    sourceMode m k = .error r ↔ 1 < dig m (k - 1) ∧ r = .badMode k (dig m (k - 1)) := by
  unfold sourceMode
  split
  · rename_i h; simp [h]
  · rename_i h; simp [h]
  · rename_i h0 h1
    replace h0 : dig m (k - 1) ≠ 0 := h0
    replace h1 : dig m (k - 1) ≠ 1 := h1
    have : 1 < dig m (k - 1) := by omega
    simp [this, eq_comm]

theorem destMode_eq_ok {m k : Nat} {md : Mode} : destMode m k = .ok md ↔ dig m (k - 1) = 0 ∧ md = .position := by
  unfold destMode
  split
  · rename_i h; simp [h, eq_comm]
  · rename_i h; simp [h]
  · rename_i h0 h1
    replace h0 : dig m (k - 1) ≠ 0 := h0
    simp [h0]

theorem destMode_eq_error {m k : Nat} {r : DecodeReason} :
    destMode m k = .error r ↔ (dig m (k - 1) = 1 ∧ r = .immediateDest k) ∨
      (1 < dig m (k - 1) ∧ r = .badMode k (dig m (k - 1))) := by
  unfold destMode
  split
  · rename_i h; simp [h]
  · rename_i h; simp [h, eq_comm]
  · rename_i h0 h1
    replace h0 : dig m (k - 1) ≠ 0 := h0
    replace h1 : dig m (k - 1) ≠ 1 := h1
    have : 1 < dig m (k - 1) := by omega
    have hne : dig m (k - 1) ≠ 1 := by omega
    simp [this, hne, eq_comm]

theorem noExcess_eq_ok {m n : Nat} {u : Unit} : noExcess m n = .ok u ↔ m / 10 ^ n = 0 := by
  unfold noExcess
  split <;> simp [*]

theorem noExcess_eq_error {m n : Nat} {r : DecodeReason} :
    noExcess m n = .error r ↔ m / 10 ^ n ≠ 0 ∧ r = .excessDigits := by
  unfold noExcess
  split
  · rename_i h; simp [h]
  · rename_i h; simp only [h, not_false_eq_true, ne_eq, true_and, Except.error.injEq, eq_comm]

/-- On a non-negative word the decoder works on its decimal value (30_encoding.md R55). -/
theorem decode_of_nonneg {w : Word} (h : 0 ≤ w.toInt) : decode w = decodeNat w.toInt.toNat := by
  unfold decode
  rw [if_neg (by omega)]

/-- A negative word is rejected (30_encoding.md R60). -/
theorem decode_of_neg {w : Word} (h : w.toInt < 0) : decode w = .error .badOpcode := by
  unfold decode
  rw [if_pos h]

/-- A word given by a number below 2^63 has that number as its value. -/
theorem toInt_ofNat_of_lt {n : Nat} (h : n < 2 ^ 63) : (BitVec.ofNat wordBits n).toInt = (n : Int) := by
  have h1 : n % 2 ^ 64 = n := Nat.mod_eq_of_lt (by omega)
  rw [BitVec.toInt_eq_toNat_cond]
  simp only [BitVec.toNat_ofNat, wordBits, h1]
  rw [if_pos (by omega)]

/-- An encoded word is small and not negative. -/
theorem encodeNat_lt (i : Instr) : encodeNat i < 20000 := by
  have hd := Mode.digit_le
  cases i with
  | add a b c => have := hd a; have := hd b; have := hd c; simp only [encodeNat, Instr.opnum, Instr.modes, modeDigits]; omega
  | mul a b c => have := hd a; have := hd b; have := hd c; simp only [encodeNat, Instr.opnum, Instr.modes, modeDigits]; omega
  | input a => have := hd a; simp only [encodeNat, Instr.opnum, Instr.modes, modeDigits]; omega
  | output a => have := hd a; simp only [encodeNat, Instr.opnum, Instr.modes, modeDigits]; omega
  | jt a b => have := hd a; have := hd b; simp only [encodeNat, Instr.opnum, Instr.modes, modeDigits]; omega
  | jf a b => have := hd a; have := hd b; simp only [encodeNat, Instr.opnum, Instr.modes, modeDigits]; omega
  | lt a b c => have := hd a; have := hd b; have := hd c; simp only [encodeNat, Instr.opnum, Instr.modes, modeDigits]; omega
  | eq a b c => have := hd a; have := hd b; have := hd c; simp only [encodeNat, Instr.opnum, Instr.modes, modeDigits]; omega
  | halt => decide

theorem toInt_encode (i : Instr) : (encode i).toInt = (encodeNat i : Int) :=
  toInt_ofNat_of_lt (by have := encodeNat_lt i; omega)

/-- Decoding an encoded instruction is decoding its decimal value. -/
theorem decode_encode_eq (i : Instr) : decode (encode i) = decodeNat (encodeNat i) := by
  rw [decode_of_nonneg (by rw [toInt_encode]; omega), toInt_encode, Int.toNat_natCast]

end Sys2Proof
end

