-- ==== Sys2Proof/Laws/Memory.lean ====
section
/-! SUPPORT. The laws of program memory: reading after a write, the canonical form, and images. -/

namespace Sys2Proof.Machine

/-! ### One list of cells -/

theorem lookup_cellsErase_self (a : Nat) (cells : List (Nat × Word)) : (cellsErase a cells).lookup a = none := by
  induction cells with
  | nil => rfl
  | cons c rest ih =>
    obtain ⟨b, w⟩ := c
    by_cases h : b = a
    · simp [cellsErase, h, ih]
    · have : (a == b) = false := by simpa using Ne.symm h
      simp [cellsErase, h, List.lookup_cons, this, ih]

theorem lookup_cellsErase_other {a x : Nat} (hx : x ≠ a) (cells : List (Nat × Word)) :
    (cellsErase a cells).lookup x = cells.lookup x := by
  induction cells with
  | nil => rfl
  | cons c rest ih =>
    obtain ⟨b, w⟩ := c
    by_cases h : b = a
    · subst h
      have : (x == b) = false := by simpa using hx
      simp [cellsErase, List.lookup_cons, ih, this]
    · simp [cellsErase, h, List.lookup_cons, ih]

theorem lookup_cellsInsert_other {a x : Nat} (hx : x ≠ a) (v : Word) (cells : List (Nat × Word)) :
    (cellsInsert a v cells).lookup x = cells.lookup x := by
  have hxa : (x == a) = false := by simpa using hx
  induction cells with
  | nil => simp [cellsInsert, List.lookup_cons, hxa]
  | cons c rest ih =>
    obtain ⟨b, w⟩ := c
    by_cases h : a < b
    · simp [cellsInsert, h, List.lookup_cons, hxa]
    · simp [cellsInsert, h, List.lookup_cons, ih]

theorem lookup_cellsInsert_self {a : Nat} (v : Word) {cells : List (Nat × Word)} (hnone : cells.lookup a = none) :
    (cellsInsert a v cells).lookup a = some v := by
  induction cells with
  | nil => simp [cellsInsert]
  | cons c rest ih =>
    obtain ⟨b, w⟩ := c
    rw [List.lookup_cons] at hnone
    by_cases h : a < b
    · simp [cellsInsert, h]
    · by_cases hab : (a == b) = true
      · simp [hab] at hnone
      · simp only [hab] at hnone
        simp [cellsInsert, h, List.lookup_cons, hab, ih hnone]

/-! ### Reading after a write (20_memory.md R31, R32) -/

@[simp] theorem Memory.set_len (m : Memory) (a : Nat) (v : Word) : (m.set a v).len = m.len := rfl

@[simp] theorem Memory.get_set_self (m : Memory) (a : Nat) (v : Word) : (m.set a v).get a = v := by
  unfold Memory.set Memory.get
  by_cases h : v = Memory.unlisted
  · simp [h, lookup_cellsErase_self]
  · simp [h, lookup_cellsInsert_self v (lookup_cellsErase_self a m.cells)]

theorem Memory.get_set_other (m : Memory) {a x : Nat} (v : Word) (hx : x ≠ a) : (m.set a v).get x = m.get x := by
  unfold Memory.set Memory.get
  by_cases h : v = Memory.unlisted
  · simp [h, lookup_cellsErase_other hx]
  · simp [h, lookup_cellsInsert_other hx, lookup_cellsErase_other hx]

theorem Memory.get_set (m : Memory) (a x : Nat) (v : Word) : (m.set a v).get x = if x = a then v else m.get x := by
  by_cases h : x = a
  · simp [h]
  · simp [h, m.get_set_other v h]

/-! ### The canonical form -/

theorem cellsOk_cons {len lo a : Nat} {v : Word} {rest : List (Nat × Word)} :
    cellsOk len lo ((a, v) :: rest) = true ↔ lo ≤ a ∧ a < len ∧ v ≠ Memory.unlisted ∧ cellsOk len (a + 1) rest = true := by
  simp [cellsOk, and_assoc]

theorem cellsOk_lower {len lo lo' : Nat} {cells : List (Nat × Word)} (hlo : lo' ≤ lo) (h : cellsOk len lo cells = true) :
    cellsOk len lo' cells = true := by
  cases cells with
  | nil => rfl
  | cons c rest =>
    obtain ⟨b, w⟩ := c
    rw [cellsOk_cons] at h ⊢
    exact ⟨by omega, h.2⟩

theorem cellsOk_longer {len len' : Nat} (hlen : len ≤ len') {cells : List (Nat × Word)} :
    ∀ {lo : Nat}, cellsOk len lo cells = true → cellsOk len' lo cells = true := by
  induction cells with
  | nil => intro lo _; rfl
  | cons c rest ih =>
    obtain ⟨b, w⟩ := c
    intro lo h
    rw [cellsOk_cons] at h ⊢
    exact ⟨h.1, by omega, h.2.2.1, ih h.2.2.2⟩

theorem cellsOk_erase {len a : Nat} {cells : List (Nat × Word)} :
    ∀ {lo : Nat}, cellsOk len lo cells = true → cellsOk len lo (cellsErase a cells) = true := by
  induction cells with
  | nil => intro lo h; exact h
  | cons c rest ih =>
    obtain ⟨b, w⟩ := c
    intro lo h
    rw [cellsOk_cons] at h
    by_cases hb : b = a
    · simp only [cellsErase, hb, if_true]
      exact cellsOk_lower (by omega) (ih h.2.2.2)
    · simp only [cellsErase, hb, if_false]
      exact cellsOk_cons.mpr ⟨h.1, h.2.1, h.2.2.1, ih h.2.2.2⟩

theorem cellsOk_insert {len a : Nat} {v : Word} (ha : a < len) (hv : v ≠ Memory.unlisted) {cells : List (Nat × Word)} :
    ∀ {lo : Nat}, lo ≤ a → cells.lookup a = none → cellsOk len lo cells = true →
      cellsOk len lo (cellsInsert a v cells) = true := by
  induction cells with
  | nil => intro lo hlo _ _; exact cellsOk_cons.mpr ⟨hlo, ha, hv, rfl⟩
  | cons c rest ih =>
    obtain ⟨b, w⟩ := c
    intro lo hlo hnone h
    rw [cellsOk_cons] at h
    rw [List.lookup_cons] at hnone
    by_cases hab : a < b
    · simp only [cellsInsert, hab, if_true]
      exact cellsOk_cons.mpr ⟨hlo, ha, hv, cellsOk_cons.mpr ⟨by omega, h.2⟩⟩
    · have hne : (a == b) ≠ true := by
        intro he
        simp [he] at hnone
      have hne' : a ≠ b := by simpa using hne
      simp only [hne] at hnone
      simp only [cellsInsert, hab, if_false]
      exact cellsOk_cons.mpr ⟨h.1, h.2.1, h.2.2.1, ih (by omega) hnone h.2.2.2⟩

/-- A write in range keeps the canonical form. -/
theorem Memory.wf_set {m : Memory} (h : m.wf = true) {a : Nat} (ha : a < m.len) (v : Word) : (m.set a v).wf = true := by
  unfold Memory.wf Memory.set
  by_cases hv : v = Memory.unlisted
  · simpa [hv] using cellsOk_erase h
  · simpa [hv] using cellsOk_insert ha hv (Nat.zero_le a) (lookup_cellsErase_self a m.cells) (cellsOk_erase h)

theorem lookup_eq_none_of_cellsOk {len x : Nat} {cells : List (Nat × Word)} :
    ∀ {lo : Nat}, cellsOk len lo cells = true → x < lo → cells.lookup x = none := by
  induction cells with
  | nil => intro lo _ _; rfl
  | cons c rest ih =>
    obtain ⟨b, w⟩ := c
    intro lo h hx
    rw [cellsOk_cons] at h
    have hne : (x == b) = false := by
      have : x ≠ b := by omega
      simpa using this
    simp [List.lookup_cons, hne, ih h.2.2.2 (by omega)]

/-- No cell is listed at or above `LEN`. -/
theorem lookup_eq_none_of_le {len x : Nat} {cells : List (Nat × Word)} (hx : len ≤ x) :
    ∀ {lo : Nat}, cellsOk len lo cells = true → cells.lookup x = none := by
  induction cells with
  | nil => intro lo _; rfl
  | cons c rest ih =>
    obtain ⟨b, w⟩ := c
    intro lo h
    rw [cellsOk_cons] at h
    have hne : (x == b) = false := by
      have : x ≠ b := by omega
      simpa using this
    simp [List.lookup_cons, hne, ih h.2.2.2]

/-- Two canonical lists that read alike at every address are the same list. -/
theorem cells_ext {len : Nat} : ∀ {cells cells' : List (Nat × Word)} {lo : Nat},
    cellsOk len lo cells = true → cellsOk len lo cells' = true →
    (∀ x, (cells.lookup x).getD Memory.unlisted = (cells'.lookup x).getD Memory.unlisted) → cells = cells'
  | [], [], _, _, _, _ => rfl
  | [], (b, w) :: rest, _, _, h', hread => by
    rw [cellsOk_cons] at h'
    have := hread b
    simp at this
    exact absurd this.symm h'.2.2.1
  | (a, v) :: rest, [], _, h, _, hread => by
    rw [cellsOk_cons] at h
    have := hread a
    simp at this
    exact absurd this h.2.2.1
  | (a, v) :: rest, (b, w) :: rest', lo, h, h', hread => by
    rw [cellsOk_cons] at h h'
    have hab : a = b := by
      rcases Nat.lt_trichotomy a b with hlt | heq | hgt
      · have hne : (a == b) = false := by simpa using Nat.ne_of_lt hlt
        have hr := hread a
        simp [List.lookup_cons, hne, lookup_eq_none_of_cellsOk h'.2.2.2 (by omega : a < b + 1)] at hr
        exact absurd hr h.2.2.1
      · exact heq
      · have hne : (b == a) = false := by simpa using Nat.ne_of_lt hgt
        have hr := hread b
        simp [List.lookup_cons, hne, lookup_eq_none_of_cellsOk h.2.2.2 (by omega : b < a + 1)] at hr
        exact absurd hr.symm h'.2.2.1
    subst hab
    have hvw : v = w := by simpa [List.lookup_cons] using hread a
    subst hvw
    have hrest : rest = rest' := cells_ext h.2.2.2 h'.2.2.2 fun x => by
      by_cases hx : x = a
      · subst hx
        rw [lookup_eq_none_of_cellsOk h.2.2.2 (Nat.lt_succ_self x), lookup_eq_none_of_cellsOk h'.2.2.2 (Nat.lt_succ_self x)]
      · have hne : (x == a) = false := by simpa using hx
        simpa [List.lookup_cons, hne] using hread x
    rw [hrest]

/-! ### Images (10_state.md R27) -/

theorem cellsOk_imageCells : ∀ (P : List Word) (a : Nat), cellsOk (a + P.length) a (imageCells a P) = true
  | [], _ => rfl
  | w :: ws, a => by
    have ih := cellsOk_imageCells ws (a + 1)
    have hlen : a + 1 + ws.length = a + (w :: ws).length := by simp; omega
    rw [hlen] at ih
    by_cases h : w = Memory.unlisted
    · simpa [imageCells, h] using cellsOk_lower (Nat.le_succ a) ih
    · simp only [imageCells, h, if_false]
      exact cellsOk_cons.mpr ⟨le_refl a, by simp, h, ih⟩

/-- The memory of an image is in canonical form. -/
theorem Memory.wf_ofImage (P : List Word) : (Memory.ofImage P).wf = true := by
  have h := cellsOk_imageCells P 0
  rw [Nat.zero_add] at h
  exact h

@[simp] theorem Memory.ofImage_len (P : List Word) : (Memory.ofImage P).len = P.length := rfl

theorem lookup_imageCells : ∀ (P : List Word) (a k : Nat) (hk : k < P.length),
    ((imageCells a P).lookup (a + k)).getD Memory.unlisted = P[k]
  | [], _, _, hk => absurd hk (Nat.not_lt_zero _)
  | w :: ws, a, 0, _ => by
    by_cases h : w = Memory.unlisted
    · simp [imageCells, h, lookup_eq_none_of_cellsOk (cellsOk_imageCells ws (a + 1)) (Nat.lt_succ_self a)]
    · simp [imageCells, h]
  | w :: ws, a, k + 1, hk => by
    have hk' : k < ws.length := by simpa using hk
    have ih := lookup_imageCells ws (a + 1) k hk'
    have he : a + 1 + k = a + (k + 1) := by omega
    rw [he] at ih
    have hne : (a + (k + 1) == a) = false := by simp
    by_cases h : w = Memory.unlisted
    · simp [imageCells, h, ih]
    · simp [imageCells, h, List.lookup_cons, hne, ih]

/-- The memory of an image reads back the image. -/
theorem Memory.get_ofImage (P : List Word) {k : Nat} (hk : k < P.length) : (Memory.ofImage P).get k = P[k] := by
  have h := lookup_imageCells P 0 k hk
  rw [Nat.zero_add] at h
  exact h

/-! ### Placing an instruction (log entry 10) -/

@[simp] theorem Memory.place_len (m : Memory) (a : Nat) (c0 c1 c2 c3 : Word) : (m.place a c0 c1 c2 c3).len = max m.len (a + 4) := rfl

theorem Memory.get_place (m : Memory) (a : Nat) (c0 c1 c2 c3 : Word) (x : Nat) :
    (m.place a c0 c1 c2 c3).get x =
      if x = a + 3 then c3 else if x = a + 2 then c2 else if x = a + 1 then c1 else if x = a then c0 else m.get x := by
  simp only [Memory.place, Memory.get_set]
  rfl

/-- Placing an instruction keeps the canonical form. -/
theorem Memory.wf_place {m : Memory} (h : m.wf = true) (a : Nat) (c0 c1 c2 c3 : Word) : (m.place a c0 c1 c2 c3).wf = true := by
  have hgrown : Memory.wf { m with len := max m.len (a + 4) } = true := cellsOk_longer (Nat.le_max_left _ _) h
  have hlt : ∀ k < 4, a + k < max m.len (a + 4) := fun k hk => by omega
  unfold Memory.place
  exact wf_set (wf_set (wf_set (wf_set hgrown (hlt 0 (by omega)) c0) (hlt 1 (by omega)) c1) (hlt 2 (by omega)) c2) (hlt 3 (by omega)) c3

end Sys2Proof.Machine
end

