-- ==== Sys2Proof/Laws/State.lean ====
section
/-! SUPPORT. One lemma per field per state update of Machine/Ops.lean, each true by rfl. -/

namespace Sys2Proof.Machine

section advance
variable (s : State) (n : Nat)
@[simp] theorem State.advance_config : (s.advance n).config = s.config := rfl
@[simp] theorem State.advance_mem : (s.advance n).mem = s.mem := rfl
@[simp] theorem State.advance_ip : (s.advance n).ip = s.ip + n := rfl
@[simp] theorem State.advance_status : (s.advance n).status = s.status := rfl
@[simp] theorem State.advance_fault : (s.advance n).fault = s.fault := rfl
@[simp] theorem State.advance_inq : (s.advance n).inq = s.inq := rfl
@[simp] theorem State.advance_outq : (s.advance n).outq = s.outq := rfl
end advance

section raise
variable (s : State) (f : FaultRecord)
@[simp] theorem raise_config : (raise s f).config = s.config := rfl
@[simp] theorem raise_mem : (raise s f).mem = s.mem := rfl
@[simp] theorem raise_ip : (raise s f).ip = s.ip := rfl
@[simp] theorem raise_status : (raise s f).status = .faulted := rfl
@[simp] theorem raise_fault : (raise s f).fault = some f := rfl
@[simp] theorem raise_inq : (raise s f).inq = s.inq := rfl
@[simp] theorem raise_outq : (raise s f).outq = s.outq := rfl
end raise

section queues
variable (s : State) (v : Word)
@[simp] theorem State.pushInput_config : (s.pushInput v).config = s.config := rfl
@[simp] theorem State.pushInput_mem : (s.pushInput v).mem = s.mem := rfl
@[simp] theorem State.pushInput_ip : (s.pushInput v).ip = s.ip := rfl
@[simp] theorem State.pushInput_status : (s.pushInput v).status = s.status := rfl
@[simp] theorem State.pushInput_fault : (s.pushInput v).fault = s.fault := rfl
@[simp] theorem State.pushInput_inq : (s.pushInput v).inq = s.inq ++ [v] := rfl
@[simp] theorem State.pushInput_outq : (s.pushInput v).outq = s.outq := rfl
@[simp] theorem State.pushOutput_config : (s.pushOutput v).config = s.config := rfl
@[simp] theorem State.pushOutput_mem : (s.pushOutput v).mem = s.mem := rfl
@[simp] theorem State.pushOutput_ip : (s.pushOutput v).ip = s.ip := rfl
@[simp] theorem State.pushOutput_status : (s.pushOutput v).status = s.status := rfl
@[simp] theorem State.pushOutput_fault : (s.pushOutput v).fault = s.fault := rfl
@[simp] theorem State.pushOutput_inq : (s.pushOutput v).inq = s.inq := rfl
@[simp] theorem State.pushOutput_outq : (s.pushOutput v).outq = s.outq ++ [v] := rfl
end queues

/-- What `pop_front` of the input queue answers (46_host_operations.md R116). -/
theorem State.popInput_eq_some {s s' : State} {v : Word} :
    s.popInput = some (v, s') ↔ s.inq = v :: s'.inq ∧ s' = { s with inq := s'.inq } := by
  unfold State.popInput
  cases h : s.inq with
  | nil => simp
  | cons w rest =>
    constructor
    · intro he
      obtain ⟨rfl, rfl⟩ : w = v ∧ { s with inq := rest } = s' := by simpa using he
      exact ⟨rfl, rfl⟩
    · rintro ⟨he, hs⟩
      obtain ⟨rfl, rfl⟩ : w = v ∧ rest = s'.inq := by simpa using he
      rw [hs]

theorem State.popInput_eq_none {s : State} : s.popInput = none ↔ s.inq = [] := by
  unfold State.popInput
  cases s.inq <;> simp

/-- What `pop_front` of the output collection answers (46_host_operations.md R117). -/
theorem State.popOutputFront_eq_some {s s' : State} {v : Word} :
    s.popOutputFront = some (v, s') ↔ s.outq = v :: s'.outq ∧ s' = { s with outq := s'.outq } := by
  unfold State.popOutputFront
  cases h : s.outq with
  | nil => simp
  | cons w rest =>
    constructor
    · intro he
      obtain ⟨rfl, rfl⟩ : w = v ∧ { s with outq := rest } = s' := by simpa using he
      exact ⟨rfl, rfl⟩
    · rintro ⟨he, hs⟩
      obtain ⟨rfl, rfl⟩ : w = v ∧ rest = s'.outq := by simpa using he
      rw [hs]

theorem State.popOutputFront_eq_none {s : State} : s.popOutputFront = none ↔ s.outq = [] := by
  unfold State.popOutputFront
  cases s.outq <;> simp

/-- What `pop_back` of the output collection answers (46_host_operations.md R117). -/
theorem State.popOutputBack_eq_some {s s' : State} {v : Word} :
    s.popOutputBack = some (v, s') ↔ s.outq = s'.outq ++ [v] ∧ s' = { s with outq := s'.outq } := by
  unfold State.popOutputBack
  rcases List.eq_nil_or_concat s.outq with h | ⟨front, w, h⟩
  · simp [h]
  · rw [h]
    simp only [List.concat_eq_append, List.getLast?_concat, List.dropLast_concat]
    constructor
    · intro he
      obtain ⟨rfl, rfl⟩ : w = v ∧ { s with outq := front } = s' := by simpa using he
      exact ⟨rfl, rfl⟩
    · rintro ⟨he, hs⟩
      obtain ⟨hfront, hw⟩ : front = s'.outq ∧ w = v := by simpa using he
      rw [hs, ← hfront, hw]

theorem State.popOutputBack_eq_none {s : State} : s.popOutputBack = none ↔ s.outq = [] := by
  unfold State.popOutputBack
  rcases List.eq_nil_or_concat s.outq with h | ⟨front, w, h⟩ <;> simp [h]

end Sys2Proof.Machine
end

