-- ==== Sys2Proof/Laws/Ops.lean ====
section
/-! SUPPORT. For each shared operation, once, everything it can answer. -/

namespace Sys2Proof.Machine

/-! ### Sequencing of checks -/

theorem bind_ok_iff {ε α β : Type} {x : Except ε α} {f : α → Except ε β} {b : β} :
    (x >>= f) = .ok b ↔ ∃ a, x = .ok a ∧ f a = .ok b := by
  cases x <;> simp [bind, Except.bind]

theorem bind_error_iff {ε α β : Type} {x : Except ε α} {f : α → Except ε β} {e : ε} :
    (x >>= f) = .error e ↔ x = .error e ∨ ∃ a, x = .ok a ∧ f a = .error e := by
  cases x <;> simp [bind, Except.bind]

/-- The end of a step answers one of two next states. -/
theorem settle_eq_next {s s' : State} {r : Except FaultRecord State} :
    settle s r = .next s' ↔ r = .ok s' ∨ ∃ f, r = .error f ∧ s' = raise s f := by
  cases r with
  | ok t => simp [settle]
  | error f => simp [settle, eq_comm]

/-! ### The primitives -/

theorem memRead_eq_ok {s : State} {access : Access} {a : Int} {w : Word} :
    memRead s access a = .ok w ↔ s.mem.InRange a ∧ s.mem.get a.toNat = w := by
  unfold memRead
  split
  · rename_i h
    exact ⟨fun e => by cases e; exact ⟨h, rfl⟩, fun e => by rw [ e.2]⟩
  · rename_i h
    exact ⟨fun e => (by cases e), fun e => absurd e.1 h⟩

theorem memRead_eq_error {s : State} {access : Access} {a : Int} {f : FaultRecord} :
    memRead s access a = .error f ↔ ¬ s.mem.InRange a ∧ f = .addressFault a s.ip access := by
  unfold memRead
  split
  · rename_i h
    exact ⟨fun e => (by cases e), fun e => absurd h e.1⟩
  · rename_i h
    exact ⟨fun e => by cases e; exact ⟨h, rfl⟩, fun e => by rw [e.2]⟩

theorem memWrite_eq_ok {s s' : State} {a : Int} {v : Word} :
    memWrite s a v = .ok s' ↔ s.mem.InRange a ∧ s' = { s with mem := s.mem.set a.toNat v } := by
  unfold memWrite
  split
  · rename_i h
    exact ⟨fun e => by cases e; exact ⟨h, rfl⟩, fun e => by rw [ e.2]⟩
  · rename_i h
    exact ⟨fun e => (by cases e), fun e => absurd e.1 h⟩

theorem memWrite_eq_error {s : State} {a : Int} {v : Word} {f : FaultRecord} :
    memWrite s a v = .error f ↔ ¬ s.mem.InRange a ∧ f = .addressFault a s.ip .store := by
  unfold memWrite
  split
  · rename_i h
    exact ⟨fun e => (by cases e), fun e => absurd h e.1⟩
  · rename_i h
    exact ⟨fun e => by cases e; exact ⟨h, rfl⟩, fun e => by rw [e.2]⟩

/-! ### The addressing unit -/

theorem param_eq_ok {s : State} {k : Nat} {p : Word} :
    param s k = .ok p ↔ s.ip + k < s.mem.len ∧ s.mem.get (s.ip + k) = p := by
  unfold param
  rw [memRead_eq_ok]
  simp only [Memory.InRange, Int.toNat_natCast]
  constructor <;> rintro ⟨h, rfl⟩ <;> exact ⟨by omega, rfl⟩

theorem param_eq_error {s : State} {k : Nat} {f : FaultRecord} :
    param s k = .error f ↔ s.mem.len ≤ s.ip + k ∧ f = .addressFault ((s.ip + k : Nat) : Int) s.ip .param := by
  unfold param
  rw [memRead_eq_error]
  simp only [Memory.InRange]
  constructor <;> rintro ⟨h, rfl⟩ <;> exact ⟨by omega, rfl⟩

theorem readOperand_eq_ok {s : State} {k : Nat} {m : Mode} {w : Word} :
    readOperand s k m = .ok w ↔ ∃ p, param s k = .ok p ∧
      match m with
      | .position => s.mem.InRange p.toInt ∧ s.mem.get p.toInt.toNat = w
      | .immediate => p = w := by
  unfold readOperand
  rw [bind_ok_iff]
  cases m
  · simp only [memRead_eq_ok]
  · simp [pure, Except.pure]

theorem writeTarget_eq_ok {s : State} {k : Nat} {t : Int} :
    writeTarget s k = .ok t ↔ ∃ p, param s k = .ok p ∧ p.toInt = t ∧ s.mem.InRange t := by
  unfold writeTarget
  rw [bind_ok_iff]
  refine exists_congr fun p => and_congr_right fun _ => ?_
  split
  · rename_i h
    simp only [pure, Except.pure, Except.ok.injEq]
    constructor
    · rintro rfl; exact ⟨rfl, h⟩
    · exact fun ⟨e, _⟩ => e
  · rename_i h
    constructor
    · intro he; cases he
    · rintro ⟨rfl, h'⟩; exact absurd h' h

/-- A resolved destination is in range, so the write at commit cannot fail (20_memory.md R37). -/
theorem inRange_of_writeTarget {s : State} {k : Nat} {t : Int} (h : writeTarget s k = .ok t) : s.mem.InRange t := by
  obtain ⟨_, _, _, hr⟩ := writeTarget_eq_ok.mp h
  exact hr

theorem jumpTarget_eq_ok {s : State} {t : Word} {n : Nat} :
    jumpTarget s t = .ok n ↔ s.mem.InRange t.toInt ∧ t.toInt.toNat = n := by
  unfold jumpTarget
  split
  · rename_i h
    exact ⟨fun e => by cases e; exact ⟨h, rfl⟩, fun e => by rw [ e.2]⟩
  · rename_i h
    exact ⟨fun e => (by cases e), fun e => absurd e.1 h⟩

theorem jumpTarget_eq_error {s : State} {t : Word} {f : FaultRecord} :
    jumpTarget s t = .error f ↔ ¬ s.mem.InRange t.toInt ∧ f = .addressFault t.toInt s.ip .jump := by
  unfold jumpTarget
  split
  · rename_i h
    exact ⟨fun e => (by cases e), fun e => absurd h e.1⟩
  · rename_i h
    exact ⟨fun e => by cases e; exact ⟨h, rfl⟩, fun e => by rw [e.2]⟩

/-! ### Every record names the instruction that raised it (60_exceptions.md R120) -/

theorem memRead_error_ip {s : State} {access : Access} {a : Int} {f : FaultRecord} (h : memRead s access a = .error f) :
    f.ip = s.ip := by
  obtain ⟨_, rfl⟩ := memRead_eq_error.mp h
  rfl

theorem param_error_ip {s : State} {k : Nat} {f : FaultRecord} (h : param s k = .error f) : f.ip = s.ip :=
  memRead_error_ip h

theorem readOperand_error_ip {s : State} {k : Nat} {m : Mode} {f : FaultRecord} (h : readOperand s k m = .error f) :
    f.ip = s.ip := by
  unfold readOperand at h
  rcases bind_error_iff.mp h with h | ⟨p, _, h⟩
  · exact param_error_ip h
  · cases m
    · exact memRead_error_ip h
    · cases h

theorem writeTarget_error_ip {s : State} {k : Nat} {f : FaultRecord} (h : writeTarget s k = .error f) : f.ip = s.ip := by
  unfold writeTarget at h
  rcases bind_error_iff.mp h with h | ⟨p, _, h⟩
  · exact param_error_ip h
  · split at h
    · cases h
    · cases h; rfl

theorem narrow_error_ip {s : State} {op : ArithOp} {a b : Word} {f : FaultRecord} (h : narrow s op a b = .error f) :
    f.ip = s.ip := by
  unfold narrow at h
  dsimp only at h
  split at h
  · cases h
  · split at h <;> cases h
    rfl

/-! ### The two instruction shapes -/

/-- Everything format F3 can commit. -/
theorem storeBinary_eq_ok {s s' : State} {m1 m2 : Mode} {result : Word → Word → Except FaultRecord Word} :
    storeBinary s m1 m2 result = .ok s' ↔ ∃ a b t v,
      readOperand s 1 m1 = .ok a ∧ readOperand s 2 m2 = .ok b ∧ writeTarget s 3 = .ok t ∧ result a b = .ok v ∧
      s' = { s with mem := s.mem.set t.toNat v, ip := s.ip + 4 } := by
  unfold storeBinary
  simp only [bind_ok_iff]
  constructor
  · rintro ⟨a, ha, b, hb, t, ht, v, hv, s1, hs1, he⟩
    obtain ⟨_, rfl⟩ := memWrite_eq_ok.mp hs1
    cases he
    exact ⟨a, b, t, v, ha, hb, ht, hv, rfl⟩
  · rintro ⟨a, b, t, v, ha, hb, ht, hv, rfl⟩
    exact ⟨a, ha, b, hb, t, ht, v, hv, _, memWrite_eq_ok.mpr ⟨inRange_of_writeTarget ht, rfl⟩, rfl⟩

/-- Everything format F3 can raise, in the order of 60_exceptions.md R129. -/
theorem storeBinary_eq_error {s : State} {m1 m2 : Mode} {result : Word → Word → Except FaultRecord Word} {f : FaultRecord} :
    storeBinary s m1 m2 result = .error f ↔
      readOperand s 1 m1 = .error f ∨
      ∃ a, readOperand s 1 m1 = .ok a ∧ (readOperand s 2 m2 = .error f ∨
        ∃ b, readOperand s 2 m2 = .ok b ∧ (writeTarget s 3 = .error f ∨
          ∃ t, writeTarget s 3 = .ok t ∧ result a b = .error f)) := by
  unfold storeBinary
  simp only [bind_error_iff]
  refine or_congr_right (exists_congr fun a => and_congr_right fun _ => or_congr_right (exists_congr fun b =>
    and_congr_right fun _ => or_congr_right (exists_congr fun t => and_congr_right fun ht => ?_)))
  constructor
  · rintro (h | ⟨v, _, h | ⟨s1, _, h⟩⟩)
    · exact h
    · exact absurd (inRange_of_writeTarget ht) (memWrite_eq_error.mp h).1
    · cases h
  · exact fun h => .inl h

/-- Everything format F2 can commit. -/
theorem jumpWhen_eq_ok {s s' : State} {m1 m2 : Mode} {taken : Word → Bool} :
    jumpWhen s m1 m2 taken = .ok s' ↔ ∃ c t,
      readOperand s 1 m1 = .ok c ∧ readOperand s 2 m2 = .ok t ∧
      ((taken c = true ∧ s.mem.InRange t.toInt ∧ s' = { s with ip := t.toInt.toNat }) ∨
        (taken c = false ∧ s' = { s with ip := s.ip + 3 })) := by
  unfold jumpWhen
  simp only [bind_ok_iff]
  constructor
  · rintro ⟨c, hc, t, ht, h⟩
    refine ⟨c, t, hc, ht, ?_⟩
    split at h
    · rename_i hk
      obtain ⟨n, hn, he⟩ := bind_ok_iff.mp h
      obtain ⟨hr, rfl⟩ := jumpTarget_eq_ok.mp hn
      cases he
      exact .inl ⟨hk, hr, rfl⟩
    · rename_i hk
      cases h
      exact .inr ⟨by simpa using hk, rfl⟩
  · rintro ⟨c, t, hc, ht, ⟨hk, hr, rfl⟩ | ⟨hk, rfl⟩⟩
    · refine ⟨c, hc, t, ht, ?_⟩
      rw [if_pos hk]
      exact bind_ok_iff.mpr ⟨_, jumpTarget_eq_ok.mpr ⟨hr, rfl⟩, rfl⟩
    · refine ⟨c, hc, t, ht, ?_⟩
      rw [if_neg (by simp [hk])]
      rfl

/-- Everything format F2 can raise, in the order of 60_exceptions.md R129. -/
theorem jumpWhen_eq_error {s : State} {m1 m2 : Mode} {taken : Word → Bool} {f : FaultRecord} :
    jumpWhen s m1 m2 taken = .error f ↔
      readOperand s 1 m1 = .error f ∨
      ∃ c, readOperand s 1 m1 = .ok c ∧ (readOperand s 2 m2 = .error f ∨
        ∃ t, readOperand s 2 m2 = .ok t ∧ taken c = true ∧ ¬ s.mem.InRange t.toInt ∧ f = .addressFault t.toInt s.ip .jump) := by
  unfold jumpWhen
  simp only [bind_error_iff]
  refine or_congr_right (exists_congr fun c => and_congr_right fun _ => or_congr_right (exists_congr fun t =>
    and_congr_right fun _ => ?_))
  by_cases hk : taken c = true
  · rw [if_pos hk, bind_error_iff, jumpTarget_eq_error]
    constructor
    · rintro (h | ⟨_, _, h⟩)
      · exact ⟨hk, h⟩
      · cases h
    · exact fun h => .inl h.2
  · rw [if_neg hk]
    constructor
    · intro h; cases h
    · exact fun h => absurd h.1 hk

/-! ### The fetch -/

theorem fetchInstr_eq_ok {s : State} {i : Instr} :
    fetchInstr s = .ok i ↔ s.ip < s.mem.len ∧ decode (s.mem.get s.ip) = .ok i := by
  unfold fetchInstr
  rw [bind_ok_iff]
  constructor
  · rintro ⟨w, hw, h⟩
    obtain ⟨hr, rfl⟩ := memRead_eq_ok.mp hw
    simp only [Int.toNat_natCast] at h
    refine ⟨by unfold Memory.InRange at hr; omega, ?_⟩
    split at h
    · rename_i j hj
      cases h
      exact hj
    · cases h
  · rintro ⟨hr, h⟩
    refine ⟨s.mem.get s.ip, memRead_eq_ok.mpr ⟨⟨by omega, by omega⟩, by simp⟩, ?_⟩
    rw [h]
    rfl

/-- Everything the fetch can raise (40_execution_engine.md R75; 60_exceptions.md R121). -/
theorem fetchInstr_eq_error {s : State} {f : FaultRecord} :
    fetchInstr s = .error f ↔
      (s.mem.len ≤ s.ip ∧ f = .addressFault (s.ip : Int) s.ip .fetch) ∨
      (s.ip < s.mem.len ∧ ∃ reason, decode (s.mem.get s.ip) = .error reason ∧
        f = .decodeFault s.ip (s.mem.get s.ip) reason) := by
  unfold fetchInstr
  rw [bind_error_iff]
  constructor
  · rintro (h | ⟨w, hw, h⟩)
    · obtain ⟨hr, rfl⟩ := memRead_eq_error.mp h
      exact .inl ⟨by unfold Memory.InRange at hr; omega, rfl⟩
    · obtain ⟨hr, rfl⟩ := memRead_eq_ok.mp hw
      simp only [Int.toNat_natCast] at h
      refine .inr ⟨by unfold Memory.InRange at hr; omega, ?_⟩
      split at h
      · cases h
      · rename_i reason hreason
        cases h
        exact ⟨reason, hreason, rfl⟩
  · rintro (⟨hr, rfl⟩ | ⟨hr, reason, hreason, rfl⟩)
    · exact .inl (memRead_eq_error.mpr ⟨by unfold Memory.InRange; omega, rfl⟩)
    · refine .inr ⟨s.mem.get s.ip, memRead_eq_ok.mpr ⟨⟨by omega, by omega⟩, by simp⟩, ?_⟩
      rw [hreason]

theorem fetchInstr_error_ip {s : State} {f : FaultRecord} (h : fetchInstr s = .error f) : f.ip = s.ip := by
  rcases fetchInstr_eq_error.mp h with ⟨_, rfl⟩ | ⟨_, _, _, rfl⟩ <;> rfl

end Sys2Proof.Machine
end

