-- ==== Sys2Proof/Laws/Words.lean ====
section
/-! SUPPORT. The value of a word, and what `narrow` and the truth words are (41_arithmetic.md R85; 44_compare.md R99, R100). -/

namespace Sys2Proof

theorem Word.fits (w : Word) : FitsWord w.toInt := by
  have h1 : -2 ^ 63 ≤ w.toInt := BitVec.le_toInt w
  have h2 : w.toInt < 2 ^ 63 := BitVec.toInt_lt
  simp only [FitsWord, wordMin, wordMax]
  omega

/-- A number in the word range is the value of its word. -/
theorem toInt_wordOf {r : Int} (h : FitsWord r) : (wordOf r).toInt = r := by
  obtain ⟨h1, h2⟩ := h
  unfold wordMin at h1
  unfold wordMax at h2
  unfold wordOf
  rw [BitVec.toInt_ofInt]
  apply Int.bmod_eq_of_le <;> norm_num [wordBits] <;> omega

@[simp] theorem wordOf_toInt (w : Word) : wordOf w.toInt = w :=
  BitVec.eq_of_toInt_eq (toInt_wordOf (Word.fits w))

namespace Machine

theorem narrow_of_fits {s : State} {op : ArithOp} {a b : Word} (h : FitsWord (op.exact a.toInt b.toInt)) :
    narrow s op a b = .ok (wordOf (op.exact a.toInt b.toInt)) := by
  unfold narrow
  exact if_pos h

theorem narrow_fault {s : State} {op : ArithOp} {a b : Word} (h : ¬ FitsWord (op.exact a.toInt b.toInt))
    (hc : s.config.overflow = .fault) : narrow s op a b = .error (.arithmeticFault s.ip op a b) := by
  unfold narrow
  rw [hc]
  exact if_neg h

theorem narrow_wrap {s : State} {op : ArithOp} {a b : Word} (h : ¬ FitsWord (op.exact a.toInt b.toInt))
    (hc : s.config.overflow = .wrap) :
    narrow s op a b = .ok (wordOf ((op.exact a.toInt b.toInt - wordMin) % 2 ^ wordBits + wordMin)) := by
  unfold narrow
  rw [hc]
  exact if_neg h

/-- A comparison writes the word 1 or the word 0 and nothing else (44_compare.md R100). -/
theorem truthWord_toInt (b : Bool) : (truthWord b).toInt = if b then 1 else 0 := by
  cases b <;> decide

end Machine

end Sys2Proof
end

