-- ==== Sys2Proof/Laws/Step.lean ====
section
/-! SUPPORT. What one step can do, said once: an instruction commits exactly what `Commits` says or raises one record that names it, and a step is such an instruction or a raised fetch. -/

namespace Sys2Proof.Machine

/-- `s'` is what instruction `i` commits in `s` (40_execution_engine.md R84), for operands that all resolve and checks that all pass. -/
def Commits (i : Instr) (s s' : State) : Prop :=
  match i with
  | .add m1 m2 _ => ∃ a b t v, readOperand s 1 m1 = .ok a ∧ readOperand s 2 m2 = .ok b ∧ writeTarget s 3 = .ok t ∧
      narrow s .add a b = .ok v ∧ s' = { s with mem := s.mem.set t.toNat v, ip := s.ip + 4 }
  | .mul m1 m2 _ => ∃ a b t v, readOperand s 1 m1 = .ok a ∧ readOperand s 2 m2 = .ok b ∧ writeTarget s 3 = .ok t ∧
      narrow s .mul a b = .ok v ∧ s' = { s with mem := s.mem.set t.toNat v, ip := s.ip + 4 }
  | .lt m1 m2 _ => ∃ a b t, readOperand s 1 m1 = .ok a ∧ readOperand s 2 m2 = .ok b ∧ writeTarget s 3 = .ok t ∧
      s' = { s with mem := s.mem.set t.toNat (truthWord (lessThan a b)), ip := s.ip + 4 }
  | .eq m1 m2 _ => ∃ a b t, readOperand s 1 m1 = .ok a ∧ readOperand s 2 m2 = .ok b ∧ writeTarget s 3 = .ok t ∧
      s' = { s with mem := s.mem.set t.toNat (truthWord (equals a b)), ip := s.ip + 4 }
  | .input _ => ∃ t, writeTarget s 1 = .ok t ∧
      ((s.inq = [] ∧ s.config.suspend = true ∧ s' = s) ∨
        ∃ v rest, s.inq = v :: rest ∧ s' = { s with mem := s.mem.set t.toNat v, ip := s.ip + 2, inq := rest })
  | .output m1 => ∃ a, readOperand s 1 m1 = .ok a ∧ s' = { s with outq := s.outq ++ [a], ip := s.ip + 2 }
  | .jt m1 m2 => ∃ c t, readOperand s 1 m1 = .ok c ∧ readOperand s 2 m2 = .ok t ∧
      ((c ≠ 0 ∧ s.mem.InRange t.toInt ∧ s' = { s with ip := t.toInt.toNat }) ∨ (c = 0 ∧ s' = { s with ip := s.ip + 3 }))
  | .jf m1 m2 => ∃ c t, readOperand s 1 m1 = .ok c ∧ readOperand s 2 m2 = .ok t ∧
      ((c = 0 ∧ s.mem.InRange t.toInt ∧ s' = { s with ip := t.toInt.toNat }) ∨ (c ≠ 0 ∧ s' = { s with ip := s.ip + 3 }))
  | .halt => s' = { s with status := .halted }

/-- The end of a step, read with the two facts a caller has: what a commit is, and that every record names the instruction. -/
theorem settle_cases {s s' : State} {r : Except FaultRecord State} {P : State → Prop}
    (hok : ∀ t, r = .ok t → P t) (herr : ∀ f, r = .error f → f.ip = s.ip) (h : settle s r = .next s') :
    P s' ∨ ∃ f : FaultRecord, f.ip = s.ip ∧ s' = raise s f := by
  rcases settle_eq_next.mp h with h | ⟨f, hf, rfl⟩
  · exact .inl (hok s' h)
  · exact .inr ⟨f, herr f hf, rfl⟩

theorem storeBinary_error_ip {s : State} {m1 m2 : Mode} {result : Word → Word → Except FaultRecord Word}
    (hr : ∀ a b f, result a b = .error f → f.ip = s.ip) {f : FaultRecord} (h : storeBinary s m1 m2 result = .error f) :
    f.ip = s.ip := by
  rcases storeBinary_eq_error.mp h with h | ⟨a, _, h | ⟨b, _, h | ⟨t, _, h⟩⟩⟩
  · exact readOperand_error_ip h
  · exact readOperand_error_ip h
  · exact writeTarget_error_ip h
  · exact hr a b f h

theorem jumpWhen_error_ip {s : State} {m1 m2 : Mode} {taken : Word → Bool} {f : FaultRecord}
    (h : jumpWhen s m1 m2 taken = .error f) : f.ip = s.ip := by
  rcases jumpWhen_eq_error.mp h with h | ⟨c, _, h | ⟨t, _, _, _, rfl⟩⟩
  · exact readOperand_error_ip h
  · exact readOperand_error_ip h
  · rfl

theorem execAdd_cases {s s' : State} {m1 m2 : Mode} (m3 : Mode) (h : execAdd m1 m2 s = .next s') :
    Commits (.add m1 m2 m3) s s' ∨ ∃ f : FaultRecord, f.ip = s.ip ∧ s' = raise s f :=
  settle_cases (fun _ ht => storeBinary_eq_ok.mp ht)
    (fun _ hf => storeBinary_error_ip (fun _ _ _ h => narrow_error_ip h) hf) h

theorem execMul_cases {s s' : State} {m1 m2 : Mode} (m3 : Mode) (h : execMul m1 m2 s = .next s') :
    Commits (.mul m1 m2 m3) s s' ∨ ∃ f : FaultRecord, f.ip = s.ip ∧ s' = raise s f :=
  settle_cases (fun _ ht => storeBinary_eq_ok.mp ht)
    (fun _ hf => storeBinary_error_ip (fun _ _ _ h => narrow_error_ip h) hf) h

theorem execLt_cases {s s' : State} {m1 m2 : Mode} (m3 : Mode) (h : execLt m1 m2 s = .next s') :
    Commits (.lt m1 m2 m3) s s' ∨ ∃ f : FaultRecord, f.ip = s.ip ∧ s' = raise s f :=
  settle_cases
    (fun _ ht => by
      obtain ⟨a, b, t, v, ha, hb, hw, hv, he⟩ := storeBinary_eq_ok.mp ht
      cases hv
      exact ⟨a, b, t, ha, hb, hw, he⟩)
    (fun _ hf => storeBinary_error_ip (fun _ _ _ h => by cases h) hf) h

theorem execEq_cases {s s' : State} {m1 m2 : Mode} (m3 : Mode) (h : execEq m1 m2 s = .next s') :
    Commits (.eq m1 m2 m3) s s' ∨ ∃ f : FaultRecord, f.ip = s.ip ∧ s' = raise s f :=
  settle_cases
    (fun _ ht => by
      obtain ⟨a, b, t, v, ha, hb, hw, hv, he⟩ := storeBinary_eq_ok.mp ht
      cases hv
      exact ⟨a, b, t, ha, hb, hw, he⟩)
    (fun _ hf => storeBinary_error_ip (fun _ _ _ h => by cases h) hf) h

theorem execOutput_cases {s s' : State} {m1 : Mode} (h : execOutput m1 s = .next s') :
    Commits (.output m1) s s' ∨ ∃ f : FaultRecord, f.ip = s.ip ∧ s' = raise s f :=
  settle_cases
    (fun _ ht => by
      obtain ⟨a, ha, he⟩ := bind_ok_iff.mp ht
      cases he
      exact ⟨a, ha, rfl⟩)
    (fun _ hf => by
      rcases bind_error_iff.mp hf with hf | ⟨a, _, hf⟩
      · exact readOperand_error_ip hf
      · cases hf) h

theorem execInput_cases {s s' : State} (m1 : Mode) (h : execInput s = .next s') :
    Commits (.input m1) s s' ∨ ∃ f : FaultRecord, f.ip = s.ip ∧ s' = raise s f :=
  settle_cases
    (fun t' ht => by
      obtain ⟨t, htarget, h⟩ := bind_ok_iff.mp ht
      refine ⟨t, htarget, ?_⟩
      split at h
      · rename_i hnone
        split at h
        · rename_i hsuspend
          cases h
          exact .inl ⟨State.popInput_eq_none.mp hnone, hsuspend, rfl⟩
        · cases h
      · rename_i v s1 hsome
        obtain ⟨hq, hs1⟩ := State.popInput_eq_some.mp hsome
        obtain ⟨s2, hwrite, h⟩ := bind_ok_iff.mp h
        obtain ⟨_, rfl⟩ := memWrite_eq_ok.mp hwrite
        cases h
        refine .inr ⟨v, s1.inq, hq, ?_⟩
        rw [hs1]
        rfl)
    (fun f hf => by
      rcases bind_error_iff.mp hf with hf | ⟨t, htarget, h⟩
      · exact writeTarget_error_ip hf
      · split at h
        · split at h
          · cases h
          · cases h; rfl
        · rename_i v s1 hsome
          obtain ⟨_, hs1⟩ := State.popInput_eq_some.mp hsome
          rcases bind_error_iff.mp h with h | ⟨_, _, h⟩
          · obtain ⟨hr, _⟩ := memWrite_eq_error.mp h
            rw [hs1] at hr
            exact absurd (inRange_of_writeTarget htarget) hr
          · cases h) h

theorem execJt_cases {s s' : State} {m1 m2 : Mode} (h : execJt m1 m2 s = .next s') :
    Commits (.jt m1 m2) s s' ∨ ∃ f : FaultRecord, f.ip = s.ip ∧ s' = raise s f :=
  settle_cases
    (fun _ ht => by
      obtain ⟨c, t, hc, ht, h⟩ := jumpWhen_eq_ok.mp ht
      exact ⟨c, t, hc, ht, by simpa using h⟩)
    (fun _ hf => jumpWhen_error_ip hf) h

theorem execJf_cases {s s' : State} {m1 m2 : Mode} (h : execJf m1 m2 s = .next s') :
    Commits (.jf m1 m2) s s' ∨ ∃ f : FaultRecord, f.ip = s.ip ∧ s' = raise s f :=
  settle_cases
    (fun _ ht => by
      obtain ⟨c, t, hc, ht, h⟩ := jumpWhen_eq_ok.mp ht
      exact ⟨c, t, hc, ht, by simpa using h⟩)
    (fun _ hf => jumpWhen_error_ip hf) h

theorem execHalt_cases {s s' : State} (h : execHalt s = .next s') :
    Commits .halt s s' ∨ ∃ f : FaultRecord, f.ip = s.ip ∧ s' = raise s f :=
  settle_cases (fun _ ht => by cases ht; rfl) (fun _ hf => by cases hf) h

/-- Everything an instruction can do (40_execution_engine.md R76): commit, or raise one record that names it. -/
theorem exec_cases {i : Instr} {s s' : State} (h : exec i s = .next s') :
    Commits i s s' ∨ ∃ f : FaultRecord, f.ip = s.ip ∧ s' = raise s f := by
  cases i with
  | add m1 m2 m3 => exact execAdd_cases m3 h
  | mul m1 m2 m3 => exact execMul_cases m3 h
  | input m1 => exact execInput_cases m1 h
  | output m1 => exact execOutput_cases h
  | jt m1 m2 => exact execJt_cases h
  | jf m1 m2 => exact execJf_cases h
  | lt m1 m2 m3 => exact execLt_cases m3 h
  | eq m1 m2 m3 => exact execEq_cases m3 h
  | halt => exact execHalt_cases h

/-- The end of a step is always a next state. -/
theorem settle_next (s : State) (r : Except FaultRecord State) : ∃ s', settle s r = .next s' := by
  cases r with
  | ok t => exact ⟨t, rfl⟩
  | error f => exact ⟨raise s f, rfl⟩

/-- Every instruction answers a next state in every state (93_implementation_defined.md U22). -/
theorem exec_next (i : Instr) (s : State) : ∃ s', exec i s = .next s' := by
  cases i <;> first | exact settle_next s _ | exact ⟨_, rfl⟩

theorem step_of_fetch {s : State} {i : Instr} (hs : s.status = .running) (hf : fetchInstr s = .ok i) : step s = exec i s := by
  unfold step
  rw [hs, hf]

theorem step_of_fetch_error {s : State} {f : FaultRecord} (hs : s.status = .running) (hf : fetchInstr s = .error f) :
    step s = .next (raise s f) := by
  unfold step
  rw [hs, hf]

/-- Everything a step that answers a next state can be (40_execution_engine.md R73, R78). -/
theorem step_cases {s s' : State} (h : step s = .next s') :
    s.status = .running ∧
      ((∃ i, fetchInstr s = .ok i ∧ exec i s = .next s' ∧ Commits i s s') ∨ ∃ f : FaultRecord, f.ip = s.ip ∧ s' = raise s f) := by
  cases hs : s.status with
  | halted => unfold step at h; rw [hs] at h; cases h
  | faulted => unfold step at h; rw [hs] at h; cases h
  | running =>
    refine ⟨rfl, ?_⟩
    cases hf : fetchInstr s with
    | error f =>
      rw [step_of_fetch_error hs hf] at h
      cases h
      exact .inr ⟨f, fetchInstr_error_ip hf, rfl⟩
    | ok i =>
      rw [step_of_fetch hs hf] at h
      rcases exec_cases h with hc | hr
      · exact .inl ⟨i, rfl, h, hc⟩
      · exact .inr hr

/-- A running machine always takes its step (70_reset_and_hazards.md R153). -/
theorem step_next {s : State} (hs : s.status = .running) : ∃ s', step s = .next s' := by
  cases hf : fetchInstr s with
  | error f => exact ⟨_, step_of_fetch_error hs hf⟩
  | ok i =>
    obtain ⟨s', h⟩ := exec_next i s
    exact ⟨s', (step_of_fetch hs hf).trans h⟩

end Sys2Proof.Machine
end

