-- ==== Sys2Proof/Laws/Host.lean ====
section
/-! SUPPORT. What the run controller, a host operation and a session can do, each said once, and the induction that carries a property of instances through them. -/

namespace Sys2Proof.Machine

/-! ### The run controller -/

theorem terminalResult_eq_none {s : State} : terminalResult s = none ↔ s.status = .running := by
  unfold terminalResult
  cases s.status <;> simp

theorem terminalResult_of_halted {s : State} (h : s.status = .halted) : terminalResult s = some .halted := by
  simp [terminalResult, h]

theorem terminalResult_of_faulted {s : State} (h : s.status = .faulted) : terminalResult s = some (.failed s.fault) := by
  simp [terminalResult, h]

theorem runLoop_of_terminal {s : State} {r : RunResult} (h : terminalResult s = some r) (samples : List Bool) :
    runLoop samples s = (some r, s) := by
  cases samples <;> simp [runLoop, h]

theorem runLoop_nil (s : State) : runLoop [] s = (terminalResult s, s) := rfl

theorem runLoop_cancel {s : State} (h : s.status = .running) (samples : List Bool) :
    runLoop (true :: samples) s = (some .cancelled, s) := by
  simp [runLoop, terminalResult_eq_none.mpr h]

/-- One turn of the controller on a running machine that is not cancelled: the step, then what its reply asks for. -/
theorem runLoop_turn {s s' : State} (hs : s.status = .running) (h : step s = .next s') (samples : List Bool) :
    runLoop (false :: samples) s =
      match suspendResult s.config (stepReply s s') with
      | some r => (some r, s')
      | none => runLoop samples s' := by
  cases hr : suspendResult s.config (stepReply s s') <;> simp [runLoop, terminalResult_eq_none.mpr hs, h, hr]

/-- A property that every step keeps is kept by a run. -/
theorem runLoop_keeps {P : State → Prop} (hstep : ∀ s s', P s → step s = .next s' → P s') :
    ∀ (samples : List Bool) (s : State), P s → P (runLoop samples s).2
  | [], _, h => h
  | cancel :: samples, s, h => by
    cases hs : terminalResult s with
    | some r => rw [runLoop_of_terminal hs]; exact h
    | none =>
      have hrun := terminalResult_eq_none.mp hs
      cases cancel with
      | true => rw [runLoop_cancel hrun]; exact h
      | false =>
        obtain ⟨s', hs'⟩ := step_next hrun
        rw [runLoop_turn hrun hs']
        split
        · exact hstep s s' h hs'
        · exact runLoop_keeps hstep samples s' (hstep s s' h hs')

/-! ### Host operations -/

/-- Everything a host operation can do to an instance. -/
theorem hostCall_cases (c : HostCall) (s : State) :
    (hostCall c s).2 = s ∨ (∃ w, (hostCall c s).2 = s.pushInput w) ∨ (∃ outq, (hostCall c s).2 = { s with outq := outq }) ∨
      (∃ samples, (hostCall c s).2 = (runLoop samples s).2) := by
  cases c with
  | supply v =>
    simp only [hostCall]
    cases hs : supply s v with
    | error e => exact .inl rfl
    | ok s' =>
      obtain ⟨w, _, he⟩ := bind_ok_iff.mp hs
      cases he
      exact .inr (.inl ⟨w, rfl⟩)
  | run samples => exact .inr (.inr (.inr ⟨samples, rfl⟩))
  | resume samples => exact .inr (.inr (.inr ⟨samples, rfl⟩))
  | nextOutput =>
    simp only [hostCall, nextOutput]
    cases hs : s.popOutputFront with
    | none => exact .inl rfl
    | some r => exact .inr (.inr (.inl ⟨_, (State.popOutputFront_eq_some.mp hs).2⟩))
  | latestOutput =>
    simp only [hostCall, latestOutput]
    cases hs : s.popOutputBack with
    | none => exact .inl rfl
    | some r => exact .inr (.inr (.inl ⟨_, (State.popOutputBack_eq_some.mp hs).2⟩))
  | inspect a => left; simp only [hostCall]; split <;> rfl
  | requestCancel => exact .inl rfl

/-- A property that steps, supplies and output reads keep is kept by every host operation. -/
theorem hostCall_keeps {P : State → Prop} (hstep : ∀ s s', P s → step s = .next s' → P s')
    (hin : ∀ s w, P s → P (s.pushInput w)) (hout : ∀ (s : State) outq, P s → P { s with outq := outq })
    (c : HostCall) {s : State} (h : P s) : P (hostCall c s).2 := by
  rcases hostCall_cases c s with e | ⟨w, e⟩ | ⟨outq, e⟩ | ⟨samples, e⟩ <;> rw [e]
  · exact h
  · exact hin s w h
  · exact hout s outq h
  · exact runLoop_keeps hstep samples s h

/-! ### Sessions -/

@[simp] theorem Session.idle_machine (s : State) : (Session.idle s).machine = s := rfl
@[simp] theorem Session.idle_inRun (s : State) : (Session.idle s).inRun = false := rfl
@[simp] theorem Session.after_reply (r : HostReply × State) : (Session.after r).1 = r.1 := rfl
@[simp] theorem Session.after_machine (r : HostReply × State) : (Session.after r).2.machine = r.2 := rfl
@[simp] theorem Session.after_inRun (r : HostReply × State) : (Session.after r).2.inRun = true ↔ r.1 = .ended none := by
  simp [Session.after]

/-- The next event of a session is one host operation on its machine: any, when no run is in progress; otherwise more of that run, which a cancellation request ends. -/
theorem Session.next_cases {x : Session} {e : SessionEvent} {r : HostReply × Session} (h : x.next e = some r) :
    (x.inRun = false ∧ ∃ c, e = .call c ∧ r = Session.after (hostCall c x.machine)) ∨
      (x.inRun = true ∧ ∃ samples, (e = .goOn samples ∨ e = .call .requestCancel ∧ samples = [true]) ∧
        r = Session.after (hostCall (.resume samples) x.machine)) := by
  unfold Session.next at h
  split at h <;> try cases h
  · exact .inl ⟨‹_›, _, rfl, rfl⟩
  · exact .inr ⟨‹_›, _, .inl rfl, rfl⟩
  · exact .inr ⟨‹_›, _, .inr ⟨rfl, rfl⟩, rfl⟩

theorem hostSession_cons {e : SessionEvent} {es : List SessionEvent} {x x' : Session} :
    hostSession (e :: es) x = some x' ↔ ∃ r, x.next e = some r ∧ hostSession es r.2 = some x' := by
  rw [hostSession]
  cases x.next e <;> simp

/-- A property that steps, supplies and output reads keep is kept by every session. -/
theorem hostSession_keeps {P : State → Prop} (hstep : ∀ s s', P s → step s = .next s' → P s')
    (hin : ∀ s w, P s → P (s.pushInput w)) (hout : ∀ (s : State) outq, P s → P { s with outq := outq }) :
    ∀ (es : List SessionEvent) {x x' : Session}, P x.machine → hostSession es x = some x' → P x'.machine
  | [], _, _, h, hx => by cases hx; exact h
  | _ :: es, _, _, h, hx => by
    obtain ⟨r, hr, hx⟩ := hostSession_cons.mp hx
    refine hostSession_keeps hstep hin hout es ?_ hx
    rcases Session.next_cases hr with ⟨_, c, _, rfl⟩ | ⟨_, samples, _, rfl⟩ <;> exact hostCall_keeps hstep hin hout _ h

end Sys2Proof.Machine
end

