-- ==== Sys2Proof/Laws/PerInstr.lean ====
section
/-! SUPPORT. The per-instruction family RoundTrip: decoding the word of a well-formed instruction gives it back (30_encoding.md R52, R55). -/

namespace Sys2Proof.Laws.RoundTrip

/-- The word of a well-formed instruction decodes to it. -/
def Statement (i : Instr) : Prop := i.WellFormed = true → decode (encode i) = .ok i

theorem of_decimal {i : Instr} (h : i.WellFormed = true → decodeNat (encodeNat i) = .ok i) : Statement i :=
  fun hw => (decode_encode_eq i).trans (h hw)

theorem add (m1 m2 m3 : Mode) : Statement (.add m1 m2 m3) := of_decimal (by cases m1 <;> cases m2 <;> cases m3 <;> decide)

theorem mul (m1 m2 m3 : Mode) : Statement (.mul m1 m2 m3) := of_decimal (by cases m1 <;> cases m2 <;> cases m3 <;> decide)

theorem input (m1 : Mode) : Statement (.input m1) := of_decimal (by cases m1 <;> decide)

theorem output (m1 : Mode) : Statement (.output m1) := of_decimal (by cases m1 <;> decide)

theorem jt (m1 m2 : Mode) : Statement (.jt m1 m2) := of_decimal (by cases m1 <;> cases m2 <;> decide)

theorem jf (m1 m2 : Mode) : Statement (.jf m1 m2) := of_decimal (by cases m1 <;> cases m2 <;> decide)

theorem lt (m1 m2 m3 : Mode) : Statement (.lt m1 m2 m3) := of_decimal (by cases m1 <;> cases m2 <;> cases m3 <;> decide)

theorem eq (m1 m2 m3 : Mode) : Statement (.eq m1 m2 m3) := of_decimal (by cases m1 <;> cases m2 <;> cases m3 <;> decide)

theorem halt : Statement .halt := of_decimal (by decide)

end Sys2Proof.Laws.RoundTrip
end

