-- ==== Sys2Proof/Tests/Slice0.lean ====
section
/-! SUPPORT. The model's own tests: ill-formed terms, words spelled from the digit table, one-step vectors (95_test_vectors.md names each), a few host vectors, and for every obligation with hypotheses a concrete state that meets them, clause by clause. -/

namespace Sys2Proof.Tests

open Sys2Proof Sys2Proof.Machine

/-- The state after construction from an image and inputs. -/
def boot (P I : List Int) : State := .ofImage .thisHardware (P.map wordOf) (I.map wordOf)

/-- The same with SUSPEND = true. -/
def bootSuspend (P I : List Int) : State := { boot P I with config := { overflow := .fault, suspend := true } }

/-- The same with OVERFLOW = wrap. -/
def bootWrap (P I : List Int) : State := { boot P I with config := { overflow := .wrap, suspend := false } }

/-- The next state of an outcome, if it has one. -/
def seen : Host.Outcome State Fault Refusal → Option State
  | .next s => some s
  | .fault _ => none
  | .refused _ => none

/-- `s` standing at `ip`. -/
def at' (s : State) (ip : Nat) : State := { s with ip := ip }

/-- `s` stopped by a fault. -/
def faulted (s : State) (f : FaultRecord) : State := { s with status := .faulted, fault := some f }

/-! ### Well-formedness (30_encoding.md R62) -/

theorem test_wf_add_immediate_dest : (Instr.add .position .position .immediate).WellFormed = false := by decide
theorem test_wf_mul_immediate_dest : (Instr.mul .immediate .position .immediate).WellFormed = false := by decide
theorem test_wf_lt_immediate_dest : (Instr.lt .position .immediate .immediate).WellFormed = false := by decide
theorem test_wf_eq_immediate_dest : (Instr.eq .immediate .immediate .immediate).WellFormed = false := by decide
theorem test_wf_in_immediate_dest : (Instr.input .immediate).WellFormed = false := by decide
theorem test_wf_add : (Instr.add .immediate .immediate .position).WellFormed = true := by decide
theorem test_wf_jt : (Instr.jt .immediate .immediate).WellFormed = true := by decide

/-! ### Words spelled from the digits (30_encoding.md R52; 95_test_vectors.md sections 2.1, 2.2) -/

theorem test_word_add : decode 1001 = .ok (.add .position .immediate .position) := by decide
theorem test_word_mul : decode 102 = .ok (.mul .immediate .position .position) := by decide
theorem test_word_in : decode 3 = .ok (.input .position) := by decide
theorem test_word_out : decode 104 = .ok (.output .immediate) := by decide
theorem test_word_jt : decode 1005 = .ok (.jt .position .immediate) := by decide
theorem test_word_jf : decode 106 = .ok (.jf .immediate .position) := by decide
theorem test_word_lt : decode 1107 = .ok (.lt .immediate .immediate .position) := by decide
theorem test_word_eq : decode 8 = .ok (.eq .position .position .position) := by decide
theorem test_word_halt : decode 99 = .ok .halt := by decide
theorem test_word_bad_opcode : decode 0 = .error .badOpcode ∧ decode 42 = .error .badOpcode ∧ decode 1100 = .error .badOpcode := by decide
theorem test_word_negative : decode (-99) = .error .badOpcode ∧ decode (wordOf wordMin) = .error .badOpcode := by decide
theorem test_word_bad_mode : decode 2201 = .error (.badMode 1 2) ∧ decode 20001 = .error (.badMode 3 2) ∧
    decode 12101 = .error (.badMode 2 2) ∧ decode (wordOf wordMax) = .error (.badMode 1 8) := by decide
theorem test_word_immediate_dest : decode 103 = .error (.immediateDest 1) ∧ decode 10007 = .error (.immediateDest 3) := by decide
theorem test_word_excess : decode 2004 = .error .excessDigits ∧ decode 199 = .error .excessDigits ∧
    decode 10005 = .error .excessDigits ∧ decode 100001 = .error .excessDigits := by decide
theorem test_encode : encode (.mul .position .immediate .position) = 1002 ∧ encode .halt = 99 := by decide
theorem test_table_word : decodeTableWord 64 1106 = some (.jf .immediate .immediate) ∧ decodeTableWord 64 42 = none := by decide
theorem test_fetch_word : seen (step (State.reset.withFetchWord 64 104)) =
    some (at' { State.reset.withFetchWord 64 104 with outq := [0] } 2) := by decide

/-- The worked line of 30_encoding.md R68, and the three-cell filler of R69. -/
theorem test_assemble : assemble [.instr (.add .position .immediate .position) [9, -1, 4], .word [7]] = [1001, 9, -1, 4, 7] ∧
    (AsmLine.instr (.add .position .immediate .position) [9, -1, 4]).text = "add [9], #-1, [4]" ∧
    (AsmLine.instr (.jf .immediate .immediate) [1, 0]).cells = [1106, 1, 0] := by decide +kernel
theorem test_table_rows : (opcodeTable.filter (fun r => r.matchesWord 1107)).map (fun r => r.mnemonic) = ["lt"] ∧
    opcodeTable.filter (fun r => r.matchesWord 1004) = [] ∧ opcodeTable.filter (fun r => r.matchesWord 10001) = [] := by decide

/-! ### One step of each instruction (95_test_vectors.md, the vector named in each) -/

theorem test_add_S1 : seen (step (boot [1, 0, 0, 0, 99] [])) = some (at' (boot [2, 0, 0, 0, 99] []) 4) := by decide
theorem test_add_O1 : seen (step (boot [1101, 9223372036854775807, 1, 5, 99, 0] [])) =
    some (faulted (boot [1101, 9223372036854775807, 1, 5, 99, 0] []) (.arithmeticFault 0 .add 9223372036854775807 1)) := by decide
theorem test_mul_A12 : seen (step (boot [102, -1, 5, 5, 99, 12] [])) = some (at' (boot [102, -1, 5, 5, 99, -12] []) 4) := by decide
theorem test_mul_O9_wrap : seen (step (bootWrap [1102, 9223372036854775807, 2, 5, 99, 0] [])) =
    some (at' (bootWrap [1102, 9223372036854775807, 2, 5, 99, -2] []) 4) := by decide +kernel
theorem test_in_I1 : seen (step (boot [3, 0, 4, 0, 99] [77, 88])) = some (at' (boot [77, 0, 4, 0, 99] [88]) 2) := by decide
theorem test_in_I14 : seen (step (boot [3, 7, 99] [1])) = some (faulted (boot [3, 7, 99] [1]) (.addressFault 7 0 .store)) := by decide
theorem test_out_I7 : seen (step { boot [104, -5, 4, 1] [] with outq := [2] }) =
    some (at' { boot [104, -5, 4, 1] [] with outq := [2, -5] } 2) := by decide
theorem test_out_I16 : seen (step (boot [4, 3, 99] [])) = some (faulted (boot [4, 3, 99] []) (.addressFault 3 0 .load)) := by decide
theorem test_jt_J7 : seen (step (boot [5, 0, 4, 99, 3] [])) = some (at' (boot [5, 0, 4, 99, 3] []) 3) := by decide
theorem test_jt_J15 : seen (step (boot [105, 0, 9, 99] [])) = some (faulted (boot [105, 0, 9, 99] []) (.addressFault 9 0 .load)) := by decide
theorem test_jf_J8 : seen (step (boot [6, 3, 4, 0, 7, 99, 99, 99] [])) = some (at' (boot [6, 3, 4, 0, 7, 99, 99, 99] []) 7) := by decide
theorem test_jf_J5 : seen (step (boot [1106, 7, 9, 99] [])) = some (at' (boot [1106, 7, 9, 99] []) 3) := by decide
theorem test_lt_K1 : seen (step (boot [1107, -1, 0, 5, 99, 7] [])) = some (at' (boot [1107, -1, 0, 5, 99, 1] []) 4) := by decide
theorem test_lt_K3 : seen (step (boot [1107, 3, 3, 5, 99, 7] [])) = some (at' (boot [1107, 3, 3, 5, 99, 0] []) 4) := by decide
theorem test_eq_K6 : seen (step (boot [1108, 3, 3, 5, 99, 7] [])) = some (at' (boot [1108, 3, 3, 5, 99, 1] []) 4) := by decide
theorem test_eq_K7 : seen (step (boot [1108, 3, -3, 5, 99, 7] [])) = some (at' (boot [1108, 3, -3, 5, 99, 0] []) 4) := by decide
theorem test_halt_T1 : seen (step (boot [99] [4])) = some { boot [99] [4] with status := .halted } := by decide
theorem test_fault_F1 : seen (step (boot [] [])) = some (faulted (boot [] []) (.addressFault 0 0 .fetch)) := by decide
theorem test_fault_F12 : seen (step (boot [1, 9, 8, 7, 99] [])) = some (faulted (boot [1, 9, 8, 7, 99] []) (.addressFault 9 0 .load)) := by decide
theorem test_fault_F16 : seen (step (boot [1, 9, 0] [])) = some (faulted (boot [1, 9, 0] []) (.addressFault 9 0 .load)) := by decide
theorem test_fault_F17 : seen (step (boot [201, 0, 0] [])) = some (faulted (boot [201, 0, 0] []) (.decodeFault 0 201 (.badMode 1 2))) := by decide
theorem test_fault_O10 : seen (step (bootWrap [1102, 3037000500, 3037000500, 9, 99] [])) =
    some (faulted (bootWrap [1102, 3037000500, 3037000500, 9, 99] []) (.addressFault 9 0 .store)) := by decide
theorem test_stuck_halted : seen (step { boot [99] [] with status := .halted }) = none := by decide

/-! ### The host (95_test_vectors.md section 9) -/

theorem test_host_H1 : construct .thisHardware [3, 0, 99] [8] = .ok (boot [3, 0, 99] [8]) := by decide
theorem test_host_H3 : drainOutputs [true, false, true, true, false] { boot [99] [] with outq := [3, 2, 1] } = ([3, 2], [1], boot [99] []) := by decide
theorem test_host_H5 : hostCall (.inspect 2) (boot [3, 0, 99] []) = (.value 99, boot [3, 0, 99] []) ∧
    hostCall (.inspect 3) (boot [3, 0, 99] []) = (.error .inspectRange, boot [3, 0, 99] []) ∧
    hostCall (.inspect (-1)) (boot [3, 0, 99] []) = (.error .inspectRange, boot [3, 0, 99] []) := by decide
theorem test_host_H7 : construct .thisHardware [9223372036854775808] [] = .error .valueRange ∧
    hostCall (.supply 9223372036854775808) (boot [99] []) = (.error .valueRange, boot [99] []) := by decide
theorem test_host_H9 : runLoop [false, false, true] (boot [1105, 1, 0] []) = (some .cancelled, boot [1105, 1, 0] []) := by decide
theorem test_host_X1 : hostCall (.run [false]) (bootSuspend [3, 3, 99, 0] []) = (.ended (some .needsInput), bootSuspend [3, 3, 99, 0] []) := by decide
theorem test_host_X2 : hostCall (.run [false, false, false]) (bootSuspend [3, 0, 104, 5, 99] [1]) =
    (.ended (some .outputProduced), at' { bootSuspend [1, 0, 104, 5, 99] [] with outq := [5] } 4) := by decide
theorem test_host_X4 : hostCall (.resume [false, false]) (bootSuspend [3, 7, 99] []) =
    (.ended (some (.failed (some (.addressFault 7 0 .store)))), faulted (bootSuspend [3, 7, 99] []) (.addressFault 7 0 .store)) := by decide

/-- Vector H9 and 46_host_operations.md R114: the endless loop is still running after two steps, nothing can be supplied to it, and a cancellation ends the run. -/
theorem test_host_in_run :
    hostSession [.call (.run [false, false]), .goOn [false]] (.idle (boot [1105, 1, 0] [])) = some { machine := boot [1105, 1, 0] [], inRun := true } ∧
    hostSession [.call (.run [false, false]), .call (.supply 7)] (.idle (boot [1105, 1, 0] [])) = none ∧
    hostSession [.call (.run [false, false]), .call .requestCancel, .call (.supply 7)] (.idle (boot [1105, 1, 0] [])) =
      some (.idle (boot [1105, 1, 0] [7])) := by decide

/-! ### Witnesses: every obligation with hypotheses, clause by clause, at the ends of the range -/

/-- An `add` whose destination cell is 3, 4 (the last cell), 5 = LEN and -1 in turn. -/
def addTo (t : Int) : State := boot [1101, 2, 3, t, 0] []

theorem witness_MemReadGivesTheCellOrAddressFault :
    (∀ a ∈ [(0 : Int), 4], 0 ≤ a ∧ a < (addTo 4).mem.len) ∧ (∀ a ∈ [(-1 : Int), 5], ¬ (0 ≤ a ∧ a < (addTo 4).mem.len)) ∧
    memRead (addTo 4) .load 2 = .ok 3 := by decide
theorem witness_MemWriteChangesExactlyOneCell :
    (∀ a ∈ [(0 : Int), 4], 0 ≤ a ∧ a < (addTo 4).mem.len) ∧ (∀ a ∈ [(-1 : Int), 5], ¬ (0 ≤ a ∧ a < (addTo 4).mem.len)) ∧
    memWrite (addTo 4) 2 9 = .ok (boot [1101, 2, 9, 4, 0] []) := by decide
theorem witness_CanonicalMemoriesReadingAlikeAreEqual :
    let m := (boot [5, 0, 7] []).mem
    let m' := (((boot [5, 6, 0] []).mem.set 2 7).set 1 0)
    m.wf = true ∧ m'.wf = true ∧ m.len = m'.len ∧ ∀ a : Nat, m.get a = m'.get a :=
  ⟨by decide, by decide, by decide, fun _ => rfl⟩
theorem witness_ReadOperandResolvesByMode :
    (let s := boot [1, 0] []; s.mem.get (s.ip + 2) = 0 ∧ s.mem.len ≤ s.ip + 2) ∧
    (let s := boot [1, -7] []; s.mem.get (s.ip + 1) = -7 ∧ s.ip + 1 < s.mem.len) ∧
    (∀ p ∈ [(0 : Int), 1], let s := boot [1, p] []
      s.mem.get (s.ip + 1) = wordOf p ∧ s.ip + 1 < s.mem.len ∧ 0 ≤ (wordOf p).toInt ∧ (wordOf p).toInt < s.mem.len) ∧
    (∀ p ∈ [(-1 : Int), 2], let s := boot [1, p] []
      s.mem.get (s.ip + 1) = wordOf p ∧ s.ip + 1 < s.mem.len ∧ ¬ (0 ≤ (wordOf p).toInt ∧ (wordOf p).toInt < s.mem.len)) := by decide
theorem witness_WriteTargetIsTheRawAddress :
    (let s := boot [1, 0, 0] []; s.mem.get (s.ip + 3) = 0 ∧ s.mem.len ≤ s.ip + 3) ∧
    (∀ p ∈ [(0 : Int), 4], (addTo p).mem.get 3 = wordOf p ∧ 3 < (addTo p).mem.len ∧ 0 ≤ (wordOf p).toInt ∧
      (wordOf p).toInt < (addTo p).mem.len) ∧
    (∀ p ∈ [(-1 : Int), 5], (addTo p).mem.get 3 = wordOf p ∧ 3 < (addTo p).mem.len ∧
      ¬ (0 ≤ (wordOf p).toInt ∧ (wordOf p).toInt < (addTo p).mem.len)) := by decide
theorem witness_AWriteIsSeenByTheNextAccess :
    memWrite (addTo 4) 4 99 = .ok (boot [1101, 2, 3, 4, 99] []) ∧ decode 99 = .ok .halt ∧
    memWrite (addTo 4) 0 42 = .ok (boot [42, 2, 3, 4, 0] []) ∧ decode 42 = .error .badOpcode := by decide
theorem witness_UnknownOpcodeNumberRaisesBadOpcode : ∀ w ∈ [(0 : Int), 9, 98, 142],
    let s := boot [w] []
    s.status = .running ∧ s.ip < s.mem.len ∧ 0 ≤ (s.mem.get s.ip).toInt ∧
      (s.mem.get s.ip).toInt % 100 ∉ ([1, 2, 3, 4, 5, 6, 7, 8, 99] : List Int) := by decide
theorem witness_BadModeDigitNamesTheLowestParameter : ∀ c ∈ [((203 : Int), 1, 1), (2105, 2, 2), (20001, 3, 3), (21107, 3, 3)],
    let s := boot [c.1] []
    s.status = .running ∧ s.ip < s.mem.len ∧ 0 ≤ (s.mem.get s.ip).toInt ∧
      opnumArity ((s.mem.get s.ip).toInt.toNat % 100) = some c.2.1 ∧ 1 ≤ c.2.2 ∧ c.2.2 ≤ c.2.1 ∧
      (∀ j < c.2.2, 1 ≤ j → dig (s.mem.get s.ip).toInt.toNat (j + 1) ≤ 1) ∧
      1 < dig (s.mem.get s.ip).toInt.toNat (c.2.2 + 1) := by decide
theorem witness_NegativeWord : (-1 : Word).toInt < 0 ∧ (wordOf wordMin).toInt < 0 := by decide
theorem witness_ImmediateDest : ∀ c ∈ [((103 : Word), 1), (10001, 3), (11108, 3)],
    0 ≤ c.1.toInt ∧ opnumDestpos (c.1.toInt.toNat % 100) = some c.2 ∧
      (∀ j < c.2, 1 ≤ j → dig c.1.toInt.toNat (j + 1) ≤ 1) ∧ dig c.1.toInt.toNat (c.2 + 1) = 1 := by decide
theorem witness_ExcessDigits : ∀ c ∈ [((199 : Word), 0, 1), (1004, 1, 0), (1003, 1, 1), (10005, 2, 0), (101101, 3, 3)],
    0 ≤ c.1.toInt ∧ opnumArity (c.1.toInt.toNat % 100) = some c.2.1 ∧
      (∀ j < c.2.1 + 1, 1 ≤ j → dig c.1.toInt.toNat (j + 1) ≤ 1) ∧
      (opnumDestpos (c.1.toInt.toNat % 100) = none ∨ opnumDestpos (c.1.toInt.toNat % 100) = some c.2.2 ∧ dig c.1.toInt.toNat (c.2.2 + 1) = 0) ∧
      c.1.toInt.toNat / 10 ^ (c.2.1 + 2) ≠ 0 := by decide
theorem witness_OpcodeTableAgreesWithTheDecoder : decode 1107 = .ok (.lt .immediate .immediate .position) ∧
    (∃ r ∈ opcodeTable, r.matchesWord 1107 = true) := by decide
theorem witness_AnAssembledInstructionIsFetchedAsWritten :
    (Instr.add .position .immediate .position).WellFormed = true ∧ 2 < ([9, -1, 4] : List Word).length := by decide
theorem witness_StepRunsTheDecodedInstruction :
    let s := addTo 4
    s.status = .running ∧ s.ip < s.mem.len ∧ decode (s.mem.get s.ip) = .ok (.add .immediate .immediate .position) := by decide
theorem witness_StepIsTakenExactlyWhenRunning :
    (addTo 4).status = .running ∧ (∀ st ∈ [Status.halted, .faulted], ({ addTo 4 with status := st } : State).status ≠ .running) := by decide
theorem witness_FetchOutOfRangeRaisesAddressFault :
    ((boot [] []).status = .running ∧ (boot [] []).mem.len ≤ (boot [] []).ip) ∧
    ((at' (addTo 4) 5).status = .running ∧ (at' (addTo 4) 5).mem.len ≤ (at' (addTo 4) 5).ip) := by decide
theorem witness_DecodeFaultExactlyWhenDecodeFails :
    let s := boot [201] []
    s.status = .running ∧ s.ip < s.mem.len ∧ s.mem.get s.ip = 201 ∧ decode 201 = .error (.badMode 1 2) := by decide
theorem witness_EveryStepCommitsHaltsOrRaisesPrecisely :
    (∃ s', step (addTo 4) = .next s' ∧ s'.status = .running) ∧ (∃ s', step (boot [99] []) = .next s' ∧ s'.status = .halted) ∧
    (∃ s', step (addTo 5) = .next s' ∧ s'.status = .faulted) := ⟨⟨_, rfl, by decide⟩, ⟨_, rfl, by decide⟩, ⟨_, rfl, by decide⟩⟩
theorem witness_IpMovesByWidthOrToTheTarget :
    (∃ s', exec (.add .immediate .immediate .position) (addTo 4) = .next s' ∧ s'.status ≠ .faulted) ∧
    (∃ s', exec (.add .immediate .immediate .position) (addTo 5) = .next s' ∧ s'.status = .faulted) ∧
    (∃ s', exec (.input .position) (bootSuspend [3, 0] []) = .next s' ∧ s'.status ≠ .faulted) ∧
    (∃ s', exec (.jt .immediate .immediate) (boot [1105, 1, 2] []) = .next s' ∧ s'.status ≠ .faulted) ∧
    (∃ s', exec (.jt .immediate .immediate) (boot [1105, 0, 3] []) = .next s' ∧ s'.status ≠ .faulted) ∧
    (∃ s', exec (.jf .immediate .immediate) (boot [1106, 0, 0] []) = .next s' ∧ s'.status ≠ .faulted) :=
  ⟨⟨_, rfl, by decide⟩, ⟨_, rfl, by decide⟩, ⟨_, rfl, by decide⟩, ⟨_, rfl, by decide⟩, ⟨_, rfl, by decide⟩, ⟨_, rfl, by decide⟩⟩
theorem witness_AStepWritesOnlyWhatItsInstructionNames :
    (fetchInstr (addTo 4) = .ok (.add .immediate .immediate .position) ∧ writeTarget (addTo 4) 3 = .ok 4) ∧
    (fetchInstr (addTo 5) = .ok (.add .immediate .immediate .position) ∧ writeTarget (addTo 5) 3 = .error (.addressFault 5 0 .store)) ∧
    (fetchInstr (boot [3, 1] [8]) = .ok (.input .position) ∧ writeTarget (boot [3, 1] [8]) 1 = .ok 1) ∧
    fetchInstr (boot [104, 7] []) = .ok (.output .immediate) ∧
    (∀ s ∈ [addTo 4, addTo 5, boot [3, 1] [8], boot [104, 7] []], seen (step s) ≠ none) := by decide
theorem witness_AddStoresTheExactSum : ∀ c ∈ [(wordMax, (0 : Int)), (wordMin, 0), (wordMax - 1, 1), (wordMin + 1, -1)],
    let s := boot [1101, c.1, c.2, 4, 0] []
    readOperand s 1 .immediate = .ok (wordOf c.1) ∧ readOperand s 2 .immediate = .ok (wordOf c.2) ∧ writeTarget s 3 = .ok 4 ∧
      wordMin ≤ (wordOf c.1).toInt + (wordOf c.2).toInt ∧ (wordOf c.1).toInt + (wordOf c.2).toInt ≤ wordMax := by decide
theorem witness_MulStoresTheExactProduct : ∀ c ∈ [(wordMax, (1 : Int)), (wordMin, 1), (wordMax, -1), (-3, 7)],
    let s := boot [1102, c.1, c.2, 0] []
    readOperand s 1 .immediate = .ok (wordOf c.1) ∧ readOperand s 2 .immediate = .ok (wordOf c.2) ∧ writeTarget s 3 = .ok 0 ∧
      wordMin ≤ (wordOf c.1).toInt * (wordOf c.2).toInt ∧ (wordOf c.1).toInt * (wordOf c.2).toInt ≤ wordMax := by decide
theorem witness_ArithmeticOutOfRangeRaises : ∀ c ∈ [(wordMax, (1 : Int)), (wordMin, -1)],
    let s := boot [1101, c.1, c.2, 4, 0] []
    s.config.overflow = .fault ∧ readOperand s 1 .immediate = .ok (wordOf c.1) ∧ readOperand s 2 .immediate = .ok (wordOf c.2) ∧
      writeTarget s 3 = .ok 4 ∧
      ¬ (wordMin ≤ (wordOf c.1).toInt + (wordOf c.2).toInt ∧ (wordOf c.1).toInt + (wordOf c.2).toInt ≤ wordMax) := by decide
theorem witness_ArithmeticOutOfRangeRaises_mul : ∀ c ∈ [(wordMax, (2 : Int)), (wordMin, -1)],
    let s := boot [1102, c.1, c.2, 4, 0] []
    s.config.overflow = .fault ∧ readOperand s 1 .immediate = .ok (wordOf c.1) ∧ readOperand s 2 .immediate = .ok (wordOf c.2) ∧
      writeTarget s 3 = .ok 4 ∧
      ¬ (wordMin ≤ (wordOf c.1).toInt * (wordOf c.2).toInt ∧ (wordOf c.1).toInt * (wordOf c.2).toInt ≤ wordMax) := by decide
theorem witness_ArithmeticWrapsModuloTheWordSize :
    let s := bootWrap [1101, wordMax, 1, 4, 0] []
    s.config.overflow = .wrap ∧ readOperand s 1 .immediate = .ok (wordOf wordMax) ∧ readOperand s 2 .immediate = .ok 1 ∧
      writeTarget s 3 = .ok 4 := by decide
theorem witness_ComparisonsStoreExactlyOneOrZero : ∀ c ∈ [(wordMin, wordMax), (wordMax, wordMin), (-1, (0 : Int)), (3, 3)],
    let s := boot [1107, c.1, c.2, 4, 0] []
    readOperand s 1 .immediate = .ok (wordOf c.1) ∧ readOperand s 2 .immediate = .ok (wordOf c.2) ∧ writeTarget s 3 = .ok 4 := by decide
theorem witness_InStoresTheOldestInput :
    writeTarget (boot [3, 2, 99] [5, 6]) 1 = .ok 2 ∧ (boot [3, 2, 99] [5, 6]).inq = 5 :: [6] ∧
    writeTarget (boot [3, 0] [0]) 1 = .ok 0 ∧ (boot [3, 0] [0]).inq = 0 :: [] := by decide
theorem witness_InOnAnEmptyQueueStarvesOrWaits :
    (let s := boot [3, 1] []; writeTarget s 1 = .ok 1 ∧ s.inq = [] ∧ s.config.suspend = false) ∧
    (let s := bootSuspend [3, 0] []; writeTarget s 1 = .ok 0 ∧ s.inq = [] ∧ s.config.suspend = true ∧ s.status = .running ∧
      fetchInstr s = .ok (.input .position)) := by decide
theorem witness_OutAppendsItsOperand :
    readOperand (boot [4, 1] []) 1 .position = .ok 1 ∧ readOperand (boot [4, 2] []) 1 .position = .error (.addressFault 2 0 .load) ∧
    readOperand (boot [104] []) 1 .immediate = .error (.addressFault 1 0 .param) ∧
    (boot [4, 1] []).status = .running ∧ fetchInstr (boot [4, 1] []) = .ok (.output .position) ∧ seen (step (boot [4, 1] [])) ≠ none := by decide
theorem witness_JtJumpsWhenNotZero : ∀ c ∈ [((1 : Int), (0 : Int)), (-1, 3), (1, 4), (1, -1), (0, 0), (0, 4)],
    let s := boot [1105, c.1, c.2, 99] []
    readOperand s 1 .immediate = .ok (wordOf c.1) ∧ readOperand s 2 .immediate = .ok (wordOf c.2) := by decide
theorem witness_JfJumpsWhenZero : ∀ c ∈ [((0 : Int), (0 : Int)), (0, 3), (0, 4), (0, -1), (-1, 0), (1, 4)],
    let s := boot [1106, c.1, c.2, 99] []
    readOperand s 1 .immediate = .ok (wordOf c.1) ∧ readOperand s 2 .immediate = .ok (wordOf c.2) := by decide
theorem witness_HaltSetsTheStatusOnly : (boot [99] []).status = .running ∧ fetchInstr (boot [99] []) = .ok .halt := by decide
theorem witness_TheFirstFailingOperandCheckIsRaised :
    (readOperand (boot [1, 4, 4, 4] []) 1 .position = .error (.addressFault 4 0 .load)) ∧
    (let s := boot [101, 4, -1, 4] []; readOperand s 1 .immediate = .ok 4 ∧ readOperand s 2 .position = .error (.addressFault (-1) 0 .load)) ∧
    (let s := boot [1101, 4, 5, 4] []; readOperand s 1 .immediate = .ok 4 ∧ readOperand s 2 .immediate = .ok 5 ∧
      writeTarget s 3 = .error (.addressFault 4 0 .store)) ∧
    (let s := boot [105, 1] []; readOperand s 1 .immediate = .ok 1 ∧ readOperand s 2 .position = .error (.addressFault 2 0 .param)) ∧
    (let s := boot [1105, 1, 3] []; readOperand s 1 .immediate = .ok 1 ∧ readOperand s 2 .immediate = .ok 3 ∧ ¬ s.mem.InRange (3 : Word).toInt) ∧
    readOperand (boot [4, 2] []) 1 .position = .error (.addressFault 2 0 .load) ∧
    writeTarget (boot [3, -1] [7]) 1 = .error (.addressFault (-1) 0 .store) := by decide

/-- A machine at the start of an image meets the invariant. -/
theorem inv_addTo (t : Int) : (addTo t).Inv where
  memory := by simp [addTo, boot, State.ofImage, Memory.wf_ofImage]
  length := by show 5 ≤ maxLen; decide
  pointer := Nat.zero_le _
  record := by show (none : Option FaultRecord).isSome = true ↔ Status.running = .faulted; decide
  recordIp := by intro f h; cases h
  halted := by intro h; cases h

theorem witness_EveryStepKeepsTheInvariant :
    (addTo 4).Inv ∧ (∃ s', step (addTo 4) = .next s') ∧ (addTo 5).Inv ∧ (∃ s', step (addTo 5) = .next s') :=
  ⟨inv_addTo 4, ⟨_, rfl⟩, inv_addTo 5, ⟨_, rfl⟩⟩
theorem witness_EveryReachableInstanceMeetsTheInvariant :
    construct .thisHardware [104, 5, 99] [8] = .ok (boot [104, 5, 99] [8]) ∧
    (hostSession [.call (.run [false]), .goOn [false], .call .nextOutput, .call (.supply 1)] (.idle (boot [104, 5, 99] [8]))).isSome = true := by
  decide
theorem witness_EveryReachableInstance_operation : (addTo 4).Inv := inv_addTo 4
theorem witness_LenAndParametersNeverChange : (∃ s', step (addTo 4) = .next s') ∧
    ∃ x', hostSession [.call (.run [false]), .call .requestCancel] (.idle (addTo 4)) = some x' := ⟨⟨_, rfl⟩, ⟨_, rfl⟩⟩
theorem witness_ConstructGivesTheResetState :
    (∀ v ∈ [wordMax, wordMin], FitsWord v) ∧ (([wordMax, wordMin] : List Int).length ≤ maxLen) ∧
    (∃ v ∈ [wordMax + 1], ¬ FitsWord v) ∧ (∃ v ∈ [wordMin - 1], ¬ FitsWord v) := by decide
theorem witness_ConstructRefusesAnOverlongImage : maxLen < (List.replicate (maxLen + 1) (0 : Int)).length := by simp
theorem witness_InitialInputsEqualSupplies :
    construct .thisHardware [3, 0, 99] [8, 9] = .ok (boot [3, 0, 99] [8, 9]) ∧
    construct .thisHardware [3, 0, 99] [] = .ok (boot [3, 0, 99] []) := by decide
theorem witness_SupplyAppendsToTheInputQueue :
    FitsWord wordMax ∧ FitsWord wordMin ∧ ¬ FitsWord (wordMax + 1) ∧ ¬ FitsWord (wordMin - 1) := by decide
theorem witness_NextOutputRemovesTheOldest :
    ({ boot [] [] with outq := [3, 2, 1] } : State).outq = 3 :: [2, 1] ∧ (boot [] []).outq = [] := by decide
theorem witness_LatestOutputRemovesTheNewest :
    ({ boot [] [] with outq := [3, 2, 1] } : State).outq = [3, 2] ++ [1] ∧ (boot [] []).outq = [] := by decide
theorem witness_InspectReadsWithoutTouching :
    (∀ a ∈ [(0 : Int), 4], 0 ≤ a ∧ a < (addTo 4).mem.len) ∧ (∀ a ∈ [(-1 : Int), 5], ¬ (0 ≤ a ∧ a < (addTo 4).mem.len)) := by decide
theorem witness_HostOperationsOnlyTouchTheQueues : ∀ samples, HostCall.supply 1 ≠ .run samples ∧ HostCall.supply 1 ≠ .resume samples :=
  fun _ => ⟨by simp, by simp⟩
theorem witness_TerminalMachinesReturnAtOnce :
    ({ boot [99] [] with status := .halted } : State).status = .halted ∧ (faulted (addTo 5) (.addressFault 5 0 .store)).status = .faulted := by decide
theorem witness_RunResultsMatchTheState :
    (runLoop [false] (boot [99] [])).1 = some .halted ∧
    (runLoop [false] (addTo 5)).1 = some (.failed (some (.addressFault 5 0 .store))) ∧
    (runLoop [true] (addTo 4)).1 = some .cancelled ∧ (runLoop [false] (bootSuspend [104, 7] [])).1 = some .outputProduced ∧
    (runLoop [false] (bootSuspend [3, 1] [])).1 = some .needsInput := by decide
theorem witness_ACancelledRunIsAResumablePrefix :
    runLoop (List.replicate 2 false) (boot [1105, 1, 0] []) = (none, boot [1105, 1, 0] []) := by decide
theorem witness_AMinimalRunEndsOnlyAtHaltOrFault :
    (boot [99] []).config.suspend = false ∧ (runLoop (List.replicate 1 false) (boot [99] [])).1 = some .halted ∧
    (runLoop (List.replicate 1 false) (boot [3, 0] [])).1 = some (.failed (some (.inputStarvation 0))) ∧
    (runLoop (List.replicate 1 false) (boot [104, 7] [])).1 = none := by decide
theorem witness_AMinimalRunTakesTheStep :
    (addTo 4).status = .running ∧ (addTo 4).config.suspend = false ∧ seen (step (addTo 4)) = some (at' (boot [1101, 2, 3, 4, 5] []) 4) := by decide
theorem witness_OutputsDoNotInfluenceTheProgram : ∃ s', step (boot [104, 7] []) = .next s' := ⟨_, rfl⟩
theorem witness_ASuspendingStepMatchesTheUpFrontStep :
    let s := bootSuspend [3, 0, 99] [7]
    let s' := at' (bootSuspend [7, 0, 99] []) 2
    s.config.suspend = true ∧ seen (step s) = some s' ∧ stepReply s s' ≠ .needsInput := by decide
theorem witness_AnInteractiveSessionMatchesAnUpFrontRun :
    (bootSuspend [3, 0, 99] []).config.suspend = true ∧
    suppliesAndResumes [.call (.run [false]), .call (.supply 7), .call (.resume [false]), .goOn [false]] ∧
    hostSession [.call (.run [false]), .call (.supply 7), .call (.resume [false]), .goOn [false]] (.idle (bootSuspend [3, 0, 99] [])) =
      some (.idle { at' (bootSuspend [7, 0, 99] []) 2 with status := .halted }) :=
  ⟨rfl, by simp [suppliesAndResumes], by decide⟩
theorem witness_APlacedInstructionIsTheNextOneRun :
    decodeTableWord 64 1101 = some (.add .immediate .immediate .position) ∧ (addTo 4).mem.wf = true := by decide

theorem witness_TheHostWaitsForARunToReturn :
    let s := boot [1105, 1, 0] []
    let x : Session := { machine := s, inRun := true }
    x.inRun = true ∧ x.machine.status = .running ∧ HostCall.supply 7 ≠ .requestCancel ∧
      (Session.idle s).next (.call (.run [])) = some (.ended none, x) ∧ (Session.idle s).next (.call (.run [false])) = some (.ended none, x) ∧
      (Session.idle s).next (.call .nextOutput) = some (.error .outputUnderflow, .idle s) := by decide
theorem witness_ASuspendingRunHandsBackAtOutputsAndWaits :
    (∀ s ∈ [bootSuspend [104, 7] [], bootSuspend [4, 2] [], bootSuspend [3, 1] [], bootSuspend [3, 1] [0], bootSuspend [3, 2] [], bootSuspend [99] []],
      s.status = .running ∧ s.config.suspend = true ∧ seen (step s) ≠ none) ∧
    stepReply (bootSuspend [104, 7] []) (at' { bootSuspend [104, 7] [] with outq := [7] } 2) = .outputProduced ∧
    stepReply (bootSuspend [3, 1] []) (bootSuspend [3, 1] []) = .needsInput ∧
    stepReply (bootSuspend [99] []) { bootSuspend [99] [] with status := .halted } = .done := by decide

end Sys2Proof.Tests
end

