-- ==== Sys2Proof/Proofs/Memory.lean ====
section
/-! PROOFS. Memory and the addressing unit (20_memory.md R31, R32, R36). -/

namespace Sys2Proof.Machine

/-- The two faults of `ReadOperand(k)` (20_memory.md R36): its parameter cell, or in position mode the cell it names, is out of range. -/
theorem readOperand_eq_error {s : State} {k : Nat} {m : Mode} {f : FaultRecord} :
    readOperand s k m = .error f ↔ param s k = .error f ∨
      m = .position ∧ ∃ p, param s k = .ok p ∧ ¬ s.mem.InRange p.toInt ∧ f = .addressFault p.toInt s.ip .load := by
  unfold readOperand
  rw [bind_error_iff]
  cases m with
  | position => simp only [memRead_eq_error, true_and]
  | immediate => simp [pure, Except.pure]

/-- Settles O1: the two branches of the range check. -/
theorem memReadGivesTheCellOrAddressFault : Obligations.MemReadGivesTheCellOrAddressFault := by
  intro s access a
  exact ⟨fun hin => memRead_eq_ok.mpr ⟨hin, rfl⟩, fun hout => memRead_eq_error.mpr ⟨hout, rfl⟩⟩

/-- Settles O2: in range the new state is the old one with the memory set at `a`, and reading after a write does the rest. -/
theorem memWriteChangesExactlyOneCell : Obligations.MemWriteChangesExactlyOneCell := by
  intro s a v
  refine ⟨fun hin => ?_, fun hout => memWrite_eq_error.mpr ⟨hout, rfl⟩⟩
  have hother (x : Nat) (hx : (x : Int) ≠ a) : (s.mem.set a.toNat v).get x = s.mem.get x :=
    s.mem.get_set_other v (by omega)
  exact ⟨_, memWrite_eq_ok.mpr ⟨hin, rfl⟩, s.mem.get_set_self a.toNat v, hother, rfl, s.mem.set_len a.toNat v⟩

/-- Settles O4: the parameter cell is read first, then in position mode the cell it names. -/
theorem readOperandResolvesByMode : Obligations.ReadOperandResolvesByMode := by
  intro s k p hp
  have hparam (hk : s.ip + k < s.mem.len) : param s k = .ok p := param_eq_ok.mpr ⟨hk, hp⟩
  refine ⟨fun m hk => ?_, fun hk => ?_, fun hk h0 hlen => ?_, fun hk hout => ?_⟩
  · exact readOperand_eq_error.mpr (.inl (param_eq_error.mpr ⟨hk, rfl⟩))
  · exact readOperand_eq_ok.mpr ⟨p, hparam hk, rfl⟩
  · exact readOperand_eq_ok.mpr ⟨p, hparam hk, ⟨h0, hlen⟩, rfl⟩
  · exact readOperand_eq_error.mpr (.inr ⟨rfl, p, hparam hk, hout, rfl⟩)

end Sys2Proof.Machine
end

