-- ==== Sys2Proof/Proofs/Encoding.lean ====
section
/-! PROOFS. The refusals of the decoder that the table and the mode digits decide (30_encoding.md R58, R59). -/

namespace Sys2Proof.Machine

/-! ### Mode digits and opcode numbers -/

/-- The mode digit of parameter `k`, read from the word and from its part above the opcode number (30_encoding.md R52). -/
theorem dig_div_hundred (w : Nat) {k : Nat} (hk : 1 ≤ k) : dig (w / 100) (k - 1) = dig w (k + 1) := by
  have hpow : 100 * 10 ^ (k - 1) = 10 ^ (k + 1) := by
    rw [show k + 1 = 2 + (k - 1) by omega, pow_add]
    norm_num
  unfold dig
  rw [Nat.div_div_eq_div_mul, hpow]

/-- An opcode number outside the table matches no arm of the decoder but the last (30_encoding.md R58). -/
theorem decodeNat_eq_badOpcode {w : Nat} (h : w % 100 ∉ [1, 2, 3, 4, 5, 6, 7, 8, 99]) : decodeNat w = .error .badOpcode := by
  simp only [List.mem_cons, List.not_mem_nil, or_false] at h
  unfold decodeNat
  split
  case h_10 => rfl
  all_goals omega

/-- The rows of the opcode map, by opcode number and arity (30_encoding.md R56). -/
theorem opnumArity_eq_some {x n : Nat} (h : opnumArity x = some n) :
    (x = 1 ∧ n = 3) ∨ (x = 2 ∧ n = 3) ∨ (x = 3 ∧ n = 1) ∨ (x = 4 ∧ n = 1) ∨ (x = 5 ∧ n = 2) ∨
      (x = 6 ∧ n = 2) ∨ (x = 7 ∧ n = 3) ∨ (x = 8 ∧ n = 3) ∨ (x = 99 ∧ n = 0) := by
  unfold opnumArity at h
  split at h <;> cases h <;> decide

/-! ### The lowest bad mode digit -/

theorem exists_sourceMode_eq_ok {m k : Nat} (h : dig m (k - 1) ≤ 1) : ∃ md, sourceMode m k = .ok md := by
  obtain h0 | h1 : dig m (k - 1) = 0 ∨ dig m (k - 1) = 1 := by omega
  · exact ⟨.position, sourceMode_eq_ok.mpr h0⟩
  · exact ⟨.immediate, sourceMode_eq_ok.mpr h1⟩

section LowestBadMode

variable {m k : Nat} (hk : 1 ≤ k) (hlow : ∀ j, 1 ≤ j → j < k → dig m (j - 1) ≤ 1) (hbad : 1 < dig m (k - 1))
include hk hlow hbad

/-- Two source parameters, whatever follows: the start of the formats F2 and F3. -/
theorem sourceModes_eq_badMode (hk2 : k ≤ 2) (rest : Mode → Mode → Except DecodeReason Instr) :
    (do rest (← sourceMode m 1) (← sourceMode m 2)) = .error (.badMode k (dig m (k - 1))) := by
  obtain rfl | rfl : k = 1 ∨ k = 2 := by omega
  · exact bind_error_iff.mpr (.inl (sourceMode_eq_error.mpr ⟨hbad, rfl⟩))
  · obtain ⟨m1, h1⟩ := exists_sourceMode_eq_ok (hlow 1 le_rfl (by omega))
    exact bind_error_iff.mpr (.inr ⟨m1, h1, bind_error_iff.mpr (.inl (sourceMode_eq_error.mpr ⟨hbad, rfl⟩))⟩)

theorem decodeF3_eq_badMode (hk3 : k ≤ 3) (op : Mode → Mode → Mode → Instr) :
    decodeF3 op m = .error (.badMode k (dig m (k - 1))) := by
  obtain hk2 | rfl : k ≤ 2 ∨ k = 3 := by omega
  · exact sourceModes_eq_badMode hk hlow hbad hk2 _
  · obtain ⟨m1, h1⟩ := exists_sourceMode_eq_ok (hlow 1 le_rfl (by omega))
    obtain ⟨m2, h2⟩ := exists_sourceMode_eq_ok (hlow 2 (by omega) (by omega))
    have h3 : destMode m 3 = .error (.badMode 3 (dig m 2)) := destMode_eq_error.mpr (.inr ⟨hbad, rfl⟩)
    exact bind_error_iff.mpr (.inr ⟨m1, h1, bind_error_iff.mpr (.inr ⟨m2, h2, bind_error_iff.mpr (.inl h3)⟩)⟩)

theorem decodeF2_eq_badMode (hk2 : k ≤ 2) (op : Mode → Mode → Instr) :
    decodeF2 op m = .error (.badMode k (dig m (k - 1))) :=
  sourceModes_eq_badMode hk hlow hbad hk2 _

omit hlow in
theorem decodeF1S_eq_badMode (hk1 : k ≤ 1) (op : Mode → Instr) :
    decodeF1S op m = .error (.badMode k (dig m (k - 1))) := by
  obtain rfl : k = 1 := by omega
  exact bind_error_iff.mpr (.inl (sourceMode_eq_error.mpr ⟨hbad, rfl⟩))

omit hlow in
theorem decodeF1D_eq_badMode (hk1 : k ≤ 1) (op : Mode → Instr) :
    decodeF1D op m = .error (.badMode k (dig m (k - 1))) := by
  obtain rfl : k = 1 := by omega
  exact bind_error_iff.mpr (.inl (destMode_eq_error.mpr (.inr ⟨hbad, rfl⟩)))

end LowestBadMode

/-- Whatever the format, the decoder names the lowest parameter whose mode digit is not 0 or 1 (30_encoding.md R59). -/
theorem decodeNat_eq_badMode {w n k : Nat} (hn : opnumArity (w % 100) = some n) (hk : 1 ≤ k) (hkn : k ≤ n)
    (hlow : ∀ j, 1 ≤ j → j < k → dig w (j + 1) ≤ 1) (hbad : 1 < dig w (k + 1)) :
    decodeNat w = .error (.badMode k (dig w (k + 1))) := by
  have hlow' (j : Nat) (hj : 1 ≤ j) (hjk : j < k) : dig (w / 100) (j - 1) ≤ 1 := by
    rw [dig_div_hundred w hj]
    exact hlow j hj hjk
  rw [← dig_div_hundred w hk] at hbad ⊢
  unfold decodeNat
  rcases opnumArity_eq_some hn with ⟨hop, rfl⟩ | ⟨hop, rfl⟩ | ⟨hop, rfl⟩ | ⟨hop, rfl⟩ | ⟨hop, rfl⟩ |
    ⟨hop, rfl⟩ | ⟨hop, rfl⟩ | ⟨hop, rfl⟩ | ⟨hop, rfl⟩ <;> rw [hop]
  · exact decodeF3_eq_badMode hk hlow' hbad hkn .add
  · exact decodeF3_eq_badMode hk hlow' hbad hkn .mul
  · exact decodeF1D_eq_badMode hk hbad hkn .input
  · exact decodeF1S_eq_badMode hk hbad hkn .output
  · exact decodeF2_eq_badMode hk hlow' hbad hkn .jt
  · exact decodeF2_eq_badMode hk hlow' hbad hkn .jf
  · exact decodeF3_eq_badMode hk hlow' hbad hkn .lt
  · exact decodeF3_eq_badMode hk hlow' hbad hkn .eq
  · omega

/-! ### The step on a word that does not decode -/

/-- A running machine whose opcode cell does not decode raises DecodeFault with the cell's word and the decoder's reason (60_exceptions.md R121). -/
theorem step_of_decode_error {s : State} {reason : DecodeReason} (hs : s.status = .running) (hip : s.ip < s.mem.len)
    (hd : decode (s.mem.get s.ip) = .error reason) :
    step s = .next { s with status := .faulted, fault := some (.decodeFault s.ip (s.mem.get s.ip) reason) } :=
  step_of_fetch_error hs (fetchInstr_eq_error.mpr (.inr ⟨hip, reason, hd, rfl⟩))

/-- Settles O9: on a non-negative word the integer remainder is that of the decimal value, which no row of the table matches. -/
theorem unknownOpcodeNumberRaisesBadOpcode : Obligations.UnknownOpcodeNumberRaisesBadOpcode := by
  intro s hs hip hnonneg hop
  have hnat : (s.mem.get s.ip).toInt.toNat % 100 ∉ [1, 2, 3, 4, 5, 6, 7, 8, 99] := by
    simp only [List.mem_cons, List.not_mem_nil, or_false] at hop ⊢
    omega
  have hd : decode (s.mem.get s.ip) = .error .badOpcode :=
    (decode_of_nonneg hnonneg).trans (decodeNat_eq_badOpcode hnat)
  exact ⟨hd, step_of_decode_error hs hip hd⟩

/-- Settles O10: every format reads its mode digits from parameter 1 up, the destination last. -/
theorem badModeDigitNamesTheLowestParameter : Obligations.BadModeDigitNamesTheLowestParameter := by
  intro s n k hs hip hnonneg hn hk hkn hlow hbad
  have hd : decode (s.mem.get s.ip) = .error (.badMode k (dig (s.mem.get s.ip).toInt.toNat (k + 1))) :=
    (decode_of_nonneg hnonneg).trans (decodeNat_eq_badMode hn hk hkn hlow hbad)
  exact ⟨hd, step_of_decode_error hs hip hd⟩

end Sys2Proof.Machine
end

