-- ==== Sys2Proof/Proofs/Engine.lean ====
section
/-! PROOFS. The execution engine: when a step is taken and how it moves `ip` (40_execution_engine.md R71, R74). -/

namespace Sys2Proof.Machine

/-- Settles O16: a running machine always has its next state, and a step that answers one began running. -/
theorem stepIsTakenExactlyWhenRunning : Obligations.StepIsTakenExactlyWhenRunning := by
  intro s
  refine ⟨step_next, fun hs s' h => ?_⟩
  obtain ⟨hrunning, _⟩ := step_cases h
  exact hs hrunning

/-! ### How `ip` moves -/

/-- Only `raise` gives the status `Faulted` (40_execution_engine.md R78): what an instruction commits in a running machine is running or halted. -/
theorem Commits.status_ne_faulted {i : Instr} {s s' : State} (h : Commits i s s') (hs : s.status = .running) :
    s'.status ≠ .faulted := by
  have hs' : s'.status = s.status ∨ s'.status = .halted := by
    cases i with
    | add | mul => obtain ⟨_, _, _, _, _, _, _, _, rfl⟩ := h; exact .inl rfl
    | lt | eq => obtain ⟨_, _, _, _, _, _, rfl⟩ := h; exact .inl rfl
    | input => obtain ⟨_, _, ⟨_, _, rfl⟩ | ⟨_, _, _, rfl⟩⟩ := h <;> exact .inl rfl
    | output => obtain ⟨_, _, rfl⟩ := h; exact .inl rfl
    | jt | jf => obtain ⟨_, _, _, _, ⟨_, _, rfl⟩ | ⟨_, rfl⟩⟩ := h <;> exact .inl rfl
    | halt => obtain rfl := h; exact .inr rfl
  rcases hs' with hs' | hs' <;> simp [hs', hs]

/-- Where a committed jump goes: to its target, which is in range, when it is taken, and otherwise past its three cells (43_jumps.md R93, R94). -/
theorem ip_of_jump {s s' : State} {t : Word} {taken : Prop}
    (h : (taken ∧ s.mem.InRange t.toInt ∧ s' = { s with ip := t.toInt.toNat }) ∨ (¬ taken ∧ s' = { s with ip := s.ip + 3 })) :
    (taken → (s'.ip : Int) = t.toInt) ∧ (¬ taken → s'.ip = s.ip + 3) := by
  rcases h with ⟨htaken, ⟨hnonneg, _⟩, rfl⟩ | ⟨hnot, rfl⟩
  · exact ⟨fun _ => Int.toNat_of_nonneg hnonneg, fun hnot => absurd htaken hnot⟩
  · exact ⟨fun htaken => absurd htaken hnot, fun _ => rfl⟩

/-- `jt` and `jf` compare the condition word with 0; R93 and R94 of 43_jumps.md speak of its integer value. -/
theorem word_toInt_eq_zero {c : Word} : c.toInt = 0 ↔ c = 0 := BitVec.toInt_inj (y := 0)

/-- Settles O21: an instruction commits or raises, a raised fault keeps `ip`, and what each instruction commits says where `ip` goes. -/
theorem ipMovesByWidthOrToTheTarget : Obligations.IpMovesByWidthOrToTheTarget := by
  intro i s s' hs hexec
  rcases exec_cases hexec with hc | ⟨f, _, rfl⟩
  case inr => exact ⟨fun _ => raise_ip s f, fun hne => absurd (raise_status s f) hne⟩
  refine ⟨fun hf => absurd hf (hc.status_ne_faulted hs), fun _ => ?_⟩
  cases i with
  | add | mul => obtain ⟨_, _, _, _, _, _, _, _, rfl⟩ := hc; rfl
  | lt | eq => obtain ⟨_, _, _, _, _, _, rfl⟩ := hc; rfl
  | input =>
    obtain ⟨_, _, ⟨hempty, hsuspend, rfl⟩ | ⟨v, rest, hq, rfl⟩⟩ := hc
    · exact .inr ⟨hempty, hsuspend, rfl⟩
    · exact .inl ⟨hq ▸ List.cons_ne_nil v rest, rfl⟩
  | output => obtain ⟨_, _, rfl⟩ := hc; rfl
  | jt =>
    obtain ⟨c, t, hcond, htarget, hjump⟩ := hc
    refine ⟨c, t, hcond, htarget, ?_⟩
    simpa [word_toInt_eq_zero] using ip_of_jump (taken := c ≠ 0) (by simpa using hjump)
  | jf =>
    obtain ⟨c, t, hcond, htarget, hjump⟩ := hc
    refine ⟨c, t, hcond, htarget, ?_⟩
    simpa [word_toInt_eq_zero] using ip_of_jump (taken := c = 0) hjump
  | halt => obtain rfl := hc; rfl

end Sys2Proof.Machine
end

