-- ==== Sys2Proof/Proofs/InputOutput.lean ====
section
/-! PROOFS. The output instruction (42_io.md R90), and the one word that decodes to an instruction (30_encoding.md R52). -/

namespace Sys2Proof.Machine

/-! ### A word that decodes is the encoding of its instruction -/

theorem decodeF3_eq_ok {op : Mode → Mode → Mode → Instr} {m : Nat} {i : Instr} (h : decodeF3 op m = .ok i) :
    ∃ m1 m2 m3, i = op m1 m2 m3 ∧ m = modeDigits [m1, m2, m3] := by
  obtain ⟨m1, h1, h⟩ := bind_ok_iff.mp h
  obtain ⟨m2, h2, h⟩ := bind_ok_iff.mp h
  obtain ⟨m3, h3, h⟩ := bind_ok_iff.mp h
  obtain ⟨_, hexcess, h⟩ := bind_ok_iff.mp h
  cases h
  rw [sourceMode_eq_ok] at h1 h2
  obtain ⟨h3, rfl⟩ := destMode_eq_ok.mp h3
  rw [noExcess_eq_ok] at hexcess
  refine ⟨m1, m2, .position, rfl, ?_⟩
  simp only [dig, modeDigits, Mode.digit] at *
  omega

theorem decodeF2_eq_ok {op : Mode → Mode → Instr} {m : Nat} {i : Instr} (h : decodeF2 op m = .ok i) :
    ∃ m1 m2, i = op m1 m2 ∧ m = modeDigits [m1, m2] := by
  obtain ⟨m1, h1, h⟩ := bind_ok_iff.mp h
  obtain ⟨m2, h2, h⟩ := bind_ok_iff.mp h
  obtain ⟨_, hexcess, h⟩ := bind_ok_iff.mp h
  cases h
  rw [sourceMode_eq_ok] at h1 h2
  rw [noExcess_eq_ok] at hexcess
  refine ⟨m1, m2, rfl, ?_⟩
  simp only [dig, modeDigits] at *
  omega

theorem decodeF1S_eq_ok {op : Mode → Instr} {m : Nat} {i : Instr} (h : decodeF1S op m = .ok i) :
    ∃ m1, i = op m1 ∧ m = modeDigits [m1] := by
  obtain ⟨m1, h1, h⟩ := bind_ok_iff.mp h
  obtain ⟨_, hexcess, h⟩ := bind_ok_iff.mp h
  cases h
  rw [sourceMode_eq_ok] at h1
  rw [noExcess_eq_ok] at hexcess
  refine ⟨m1, rfl, ?_⟩
  simp only [dig, modeDigits] at *
  omega

theorem decodeF1D_eq_ok {op : Mode → Instr} {m : Nat} {i : Instr} (h : decodeF1D op m = .ok i) :
    ∃ m1, i = op m1 ∧ m = modeDigits [m1] := by
  obtain ⟨m1, h1, h⟩ := bind_ok_iff.mp h
  obtain ⟨_, hexcess, h⟩ := bind_ok_iff.mp h
  cases h
  obtain ⟨h1, rfl⟩ := destMode_eq_ok.mp h1
  rw [noExcess_eq_ok] at hexcess
  refine ⟨.position, rfl, ?_⟩
  simp only [dig, modeDigits, Mode.digit] at *
  omega

theorem decodeF0_eq_ok {op i : Instr} {m : Nat} (h : decodeF0 op m = .ok i) : i = op ∧ m = modeDigits [] := by
  obtain ⟨_, hexcess, h⟩ := bind_ok_iff.mp h
  cases h
  rw [noExcess_eq_ok] at hexcess
  exact ⟨rfl, by simpa [modeDigits] using hexcess⟩

/-- The opcode number is the two lowest digits of the word, the mode digits are the rest (30_encoding.md R52). -/
theorem encodeNat_eq_of_digits {w : Nat} {i : Instr} (hop : w % 100 = i.opnum) (hmodes : w / 100 = modeDigits i.modes) :
    encodeNat i = w := by
  rw [encodeNat, ← hop, ← hmodes]
  omega

/-- No two decimal values decode to the same instruction: the value can be computed back from it. -/
theorem encodeNat_of_decodeNat {w : Nat} {i : Instr} (h : decodeNat w = .ok i) : encodeNat i = w := by
  unfold decodeNat at h
  split at h
  case h_1 hop | h_2 hop | h_7 hop | h_8 hop =>
    obtain ⟨_, _, _, rfl, hmodes⟩ := decodeF3_eq_ok h
    exact encodeNat_eq_of_digits hop hmodes
  case h_3 hop =>
    obtain ⟨_, rfl, hmodes⟩ := decodeF1D_eq_ok h
    exact encodeNat_eq_of_digits hop hmodes
  case h_4 hop =>
    obtain ⟨_, rfl, hmodes⟩ := decodeF1S_eq_ok h
    exact encodeNat_eq_of_digits hop hmodes
  case h_5 hop | h_6 hop =>
    obtain ⟨_, _, rfl, hmodes⟩ := decodeF2_eq_ok h
    exact encodeNat_eq_of_digits hop hmodes
  case h_9 hop =>
    obtain ⟨rfl, hmodes⟩ := decodeF0_eq_ok h
    exact encodeNat_eq_of_digits hop hmodes
  case h_10 => cases h

theorem toInt_of_decode {w : Word} {i : Instr} (h : decode w = .ok i) : w.toInt = encodeNat i := by
  rcases lt_or_ge w.toInt 0 with hneg | hnonneg
  · rw [decode_of_neg hneg] at h
    cases h
  · rw [decode_of_nonneg hnonneg] at h
    rw [encodeNat_of_decodeNat h, Int.toNat_of_nonneg hnonneg]

/-- An instruction that its own encoding decodes to is decoded from no other word (30_encoding.md R52, R55). -/
theorem decode_eq_ok_iff_toInt {w : Word} {i : Instr} (hround : decode (encode i) = .ok i) :
    decode w = .ok i ↔ w.toInt = encodeNat i := by
  refine ⟨toInt_of_decode, fun hw => ?_⟩
  have hencode : w = encode i := BitVec.eq_of_toInt_eq (hw.trans (toInt_encode i).symm)
  rw [hencode, hround]

/-- The words of `out` (42_io.md R90). -/
theorem decode_eq_output_iff {w : Word} {m : Mode} :
    decode w = .ok (.output m) ↔ (w.toInt = 4 ∧ m = .position) ∨ (w.toInt = 104 ∧ m = .immediate) := by
  rw [decode_eq_ok_iff_toInt (Laws.RoundTrip.output m rfl)]
  cases m with
  | position =>
    have hvalue : encodeNat (.output .position) = 4 := rfl
    simp [hvalue]
  | immediate =>
    have hvalue : encodeNat (.output .immediate) = 104 := rfl
    simp [hvalue]

/-! ### What `out` does -/

section Output

variable {s : State} {m : Mode} {a : Word}

theorem exec_output_of_ok (ha : readOperand s 1 m = .ok a) :
    exec (.output m) s = .next { s with outq := s.outq ++ [a], ip := s.ip + 2 } :=
  settle_eq_next.mpr (.inl (bind_ok_iff.mpr ⟨a, ha, rfl⟩))

theorem exec_output_of_error {f : FaultRecord} (hf : readOperand s 1 m = .error f) : exec (.output m) s = .next (raise s f) :=
  settle_eq_next.mpr (.inr ⟨f, bind_error_iff.mpr (.inl hf), rfl⟩)

/-- An `out` that left the machine running has committed (log entry 8). -/
theorem stepReply_of_output {s' : State} (hfetch : fetchInstr s = .ok (.output m)) (hs' : s'.status = .running) :
    stepReply s s' = .outputProduced := by
  simp [stepReply, hfetch, hs']

variable (hs : s.status = .running) (hfetch : fetchInstr s = .ok (.output m)) (ha : readOperand s 1 m = .ok a)
include hs hfetch ha

theorem step_output : step s = .next { s with outq := s.outq ++ [a], ip := s.ip + 2 } :=
  (step_of_fetch hs hfetch).trans (exec_output_of_ok ha)

theorem stepReply_output {s' : State} (hstep : step s = .next s') : stepReply s s' = .outputProduced := by
  rw [step_output hs hfetch ha] at hstep
  cases hstep
  exact stepReply_of_output hfetch hs

/-- One turn of the run controller on an `out`: SUSPEND alone decides whether the run goes on (40_execution_engine.md R79, R80). -/
theorem runLoop_output {s' : State} (hstep : step s = .next s') (samples : List Bool) :
    runLoop (false :: samples) s = if s.config.suspend then (some .outputProduced, s') else runLoop samples s' := by
  rw [runLoop_turn hs hstep, stepReply_output hs hfetch ha hstep]
  cases hsuspend : s.config.suspend <;> simp [suspendResult, hsuspend]

end Output

/-- Settles O30: the two encodings of `out`, what it commits or raises, and the reply the run controller then acts on. -/
theorem outAppendsItsOperand : Obligations.OutAppendsItsOperand := by
  refine ⟨fun _ _ => decode_eq_output_iff, fun _ _ _ => exec_output_of_ok, fun _ _ _ => exec_output_of_error, ?_, ?_⟩
  · rintro s s' m hs hfetch hstep ⟨a, ha⟩
    exact stepReply_output hs hfetch ha hstep
  · intro s s' m a samples hs hfetch ha hstep
    rw [runLoop_output hs hfetch ha hstep]
    exact ⟨fun hsuspend => by simp [hsuspend], fun hsuspend => by simp [hsuspend]⟩

end Sys2Proof.Machine
end

