-- ==== Sys2Proof/Proofs/Compare.lean ====
section
/-! PROOFS. What an instruction of format F3 stores when nothing is raised (30_encoding.md R53, 40_execution_engine.md R84), and the comparison instructions (44_compare.md R97 to R100). -/

namespace Sys2Proof.Machine

/-! ### One cell stored and `ip` advanced -/

theorem State.storesOne_set {s : State} {t : Int} (ht : s.mem.InRange t) (v : Word) (n : Nat) :
    s.StoresOne { s with mem := s.mem.set t.toNat v, ip := s.ip + n } t v.toInt n where
  stored := congrArg BitVec.toInt (s.mem.get_set_self t.toNat v)
  others x hx := by
    obtain ⟨hnonneg, _⟩ := ht
    exact s.mem.get_set_other v (by omega)
  length := s.mem.set_len t.toNat v
  pointer := rfl
  config := rfl
  status := rfl
  fault := rfl
  outq := rfl

/-- Format F3 with its operands, its destination and its result all there: the result is stored, and the frame. -/
theorem storeBinary_stores {s : State} {m1 m2 : Mode} {result : Word → Word → Except FaultRecord Word} {a b v : Word} {t : Int}
    (ha : readOperand s 1 m1 = .ok a) (hb : readOperand s 2 m2 = .ok b) (ht : writeTarget s 3 = .ok t)
    (hv : result a b = .ok v) :
    ∃ s', settle s (storeBinary s m1 m2 result) = .next s' ∧ s.StoresOne s' t v.toInt 4 ∧ s'.inq = s.inq := by
  have hcommit := storeBinary_eq_ok.mpr ⟨a, b, t, v, ha, hb, ht, hv, rfl⟩
  exact ⟨_, settle_eq_next.mpr (.inl hcommit), State.storesOne_set (inRange_of_writeTarget ht) v 4, rfl⟩

/-! ### The truth values (44_compare.md R99, R100) -/

theorem truthWord_lessThan_toInt (a b : Word) : (truthWord (lessThan a b)).toInt = if a.toInt < b.toInt then 1 else 0 := by
  simp only [truthWord_toInt, lessThan, decide_eq_true_eq]

theorem truthWord_equals_toInt (a b : Word) : (truthWord (equals a b)).toInt = if a.toInt = b.toInt then 1 else 0 := by
  simp only [truthWord_toInt, equals, decide_eq_true_eq]

/-- Settles O27: both are format F3, with a result that is a truth word and never a fault. -/
theorem comparisonsStoreExactlyOneOrZero : Obligations.ComparisonsStoreExactlyOneOrZero := by
  intro s m1 m2 m3 a b t ha hb ht
  rw [← truthWord_lessThan_toInt, ← truthWord_equals_toInt]
  exact ⟨storeBinary_stores ha hb ht rfl, storeBinary_stores ha hb ht rfl⟩

end Sys2Proof.Machine
end

