-- ==== Sys2Proof/Proofs/Halt.lean ====
section
/-! PROOFS. A turn of the run controller whose step replies Done (40_execution_engine.md R79), and the halt instruction (45_halt.md R101). -/

namespace Sys2Proof.Machine

/-! ### A step that replies Done -/

/-- Done never hands control back, with SUSPEND on or off (40_execution_engine.md R80). -/
@[simp] theorem suspendResult_done (config : Config) : suspendResult config .done = none := by
  cases hsuspend : config.suspend <;> simp [suspendResult, hsuspend]

theorem runLoop_of_done {s s' : State} (hs : s.status = .running) (hstep : step s = .next s') (hdone : stepReply s s' = .done)
    (samples : List Bool) : runLoop (false :: samples) s = runLoop samples s' := by
  rw [runLoop_turn hs hstep, hdone, suspendResult_done]

/-! ### What `halt` does -/

theorem decode_eq_halt_iff {w : Word} : decode w = .ok .halt ↔ w.toInt = 99 :=
  decode_eq_ok_iff_toInt (Laws.RoundTrip.halt rfl)

theorem exec_halt (s : State) : exec .halt s = .next { s with status := .halted } := rfl

section Halt

variable {s : State} (hfetch : fetchInstr s = .ok .halt)
include hfetch

theorem step_halt (hs : s.status = .running) : step s = .next { s with status := .halted } :=
  (step_of_fetch hs hfetch).trans (exec_halt s)

theorem stepReply_halt (s' : State) : stepReply s s' = .done := by
  simp [stepReply, hfetch]

/-- The turn that executes `halt` goes on to the next one, which finds the machine terminal. -/
theorem runLoop_halt (hs : s.status = .running) (samples : List Bool) :
    runLoop (false :: samples) s = (some .halted, { s with status := .halted }) := by
  rw [runLoop_of_done hs (step_halt hfetch hs) (stepReply_halt hfetch _)]
  exact runLoop_of_terminal (terminalResult_of_halted rfl) samples

end Halt

/-- Settles O33: the one encoding of `halt`, the status it commits, and its reply Done, after which the run controller sees the machine halted. -/
theorem haltSetsTheStatusOnly : Obligations.HaltSetsTheStatusOnly :=
  ⟨fun _ => decode_eq_halt_iff, exec_halt, fun _ hs hfetch => step_halt hfetch hs, fun _ s' hfetch => stepReply_halt hfetch s',
    fun _ samples hs hfetch => runLoop_halt hfetch hs samples⟩

end Sys2Proof.Machine
end

