-- ==== Sys2Proof/Proofs/HostOps.lean ====
section
/-! PROOFS. What the two output accessors answer, and that one which fails leaves the instance as it was (46_host_operations.md R108, R109). -/

namespace Sys2Proof.Machine

/-! ### The oldest output -/

theorem nextOutput_eq_ok {s s' : State} {v : Word} :
    nextOutput s = .ok (v, s') ↔ s.outq = v :: s'.outq ∧ s' = { s with outq := s'.outq } := by
  rw [← State.popOutputFront_eq_some]
  cases hpop : s.popOutputFront <;> simp [nextOutput, hpop]

theorem nextOutput_eq_error {s : State} {e : HostError} :
    nextOutput s = .error e ↔ s.outq = [] ∧ e = .outputUnderflow := by
  rw [← State.popOutputFront_eq_none]
  cases hpop : s.popOutputFront <;> simp [nextOutput, hpop, eq_comm]

theorem hostCall_nextOutput_of_error {s : State} {e : HostError} (he : nextOutput s = .error e) :
    hostCall .nextOutput s = (.error e, s) := by
  simp only [hostCall, he]

/-- Settles O42: the accessor answers as `pop_front` of the output collection does, and the host call keeps the instance on an error. -/
theorem nextOutputRemovesTheOldest : Obligations.NextOutputRemovesTheOldest := by
  intro s
  refine ⟨fun v rest hq => nextOutput_eq_ok.mpr ⟨hq, rfl⟩, fun hempty => ?_⟩
  have herr : nextOutput s = .error .outputUnderflow := nextOutput_eq_error.mpr ⟨hempty, rfl⟩
  exact ⟨herr, congrArg Prod.snd (hostCall_nextOutput_of_error herr)⟩

/-! ### The newest output -/

theorem latestOutput_eq_ok {s s' : State} {v : Word} :
    latestOutput s = .ok (v, s') ↔ s.outq = s'.outq ++ [v] ∧ s' = { s with outq := s'.outq } := by
  rw [← State.popOutputBack_eq_some]
  cases hpop : s.popOutputBack <;> simp [latestOutput, hpop]

theorem latestOutput_eq_error {s : State} {e : HostError} :
    latestOutput s = .error e ↔ s.outq = [] ∧ e = .outputUnderflow := by
  rw [← State.popOutputBack_eq_none]
  cases hpop : s.popOutputBack <;> simp [latestOutput, hpop, eq_comm]

theorem hostCall_latestOutput_of_error {s : State} {e : HostError} (he : latestOutput s = .error e) :
    hostCall .latestOutput s = (.error e, s) := by
  simp only [hostCall, he]

/-- Settles O43: the accessor answers as `pop_back` of the output collection does, and the host call keeps the instance on an error. -/
theorem latestOutputRemovesTheNewest : Obligations.LatestOutputRemovesTheNewest := by
  intro s
  refine ⟨fun front v hq => latestOutput_eq_ok.mpr ⟨hq, rfl⟩, fun hempty => ?_⟩
  have herr : latestOutput s = .error .outputUnderflow := latestOutput_eq_error.mpr ⟨hempty, rfl⟩
  exact ⟨herr, congrArg Prod.snd (hostCall_latestOutput_of_error herr)⟩

end Sys2Proof.Machine
end

section
/-! PROOFS. The decoder and its tables, every instruction, the invariant, the run controller and the host's sessions. -/

namespace Sys2Proof.Machine

/-! ### The decoder and the encoder (30_encoding.md R52 to R62) -/

theorem decodeF3_eq_ok_dest {op : Mode → Mode → Mode → Instr} {m : Nat} {i : Instr} (h : decodeF3 op m = .ok i) :
    ∃ m1 m2, i = op m1 m2 .position := by
  obtain ⟨m1, _, h⟩ := bind_ok_iff.mp h
  obtain ⟨m2, _, h⟩ := bind_ok_iff.mp h
  obtain ⟨m3, h3, h⟩ := bind_ok_iff.mp h
  obtain ⟨_, _, h⟩ := bind_ok_iff.mp h
  cases h
  obtain ⟨_, rfl⟩ := destMode_eq_ok.mp h3
  exact ⟨m1, m2, rfl⟩

theorem decodeF1D_eq_ok_dest {op : Mode → Instr} {m : Nat} {i : Instr} (h : decodeF1D op m = .ok i) : i = op .position := by
  obtain ⟨m1, h1, h⟩ := bind_ok_iff.mp h
  obtain ⟨_, _, h⟩ := bind_ok_iff.mp h
  cases h
  obtain ⟨_, rfl⟩ := destMode_eq_ok.mp h1
  rfl

/-- The decoder answers no immediate destination (30_encoding.md R62). -/
theorem wellFormed_of_decodeNat {w : Nat} {i : Instr} (h : decodeNat w = .ok i) : i.WellFormed = true := by
  unfold decodeNat at h
  split at h
  case h_1 | h_2 | h_7 | h_8 => obtain ⟨_, _, rfl⟩ := decodeF3_eq_ok_dest h; rfl
  case h_3 => obtain rfl := decodeF1D_eq_ok_dest h; rfl
  case h_4 => obtain ⟨_, rfl, _⟩ := decodeF1S_eq_ok h; rfl
  case h_5 | h_6 => obtain ⟨_, _, rfl, _⟩ := decodeF2_eq_ok h; rfl
  case h_9 => obtain ⟨rfl, _⟩ := decodeF0_eq_ok h; rfl
  case h_10 => cases h

theorem wellFormed_of_decode {w : Word} {i : Instr} (h : decode w = .ok i) : i.WellFormed = true := by
  rcases lt_or_ge w.toInt 0 with hneg | hnonneg
  · rw [decode_of_neg hneg] at h
    cases h
  · rw [decode_of_nonneg hnonneg] at h
    exact wellFormed_of_decodeNat h

theorem decode_encode {i : Instr} (h : i.WellFormed = true) : decode (encode i) = .ok i := by
  cases i with
  | add m1 m2 m3 => exact Laws.RoundTrip.add m1 m2 m3 h
  | mul m1 m2 m3 => exact Laws.RoundTrip.mul m1 m2 m3 h
  | input m1 => exact Laws.RoundTrip.input m1 h
  | output m1 => exact Laws.RoundTrip.output m1 h
  | jt m1 m2 => exact Laws.RoundTrip.jt m1 m2 h
  | jf m1 m2 => exact Laws.RoundTrip.jf m1 m2 h
  | lt m1 m2 m3 => exact Laws.RoundTrip.lt m1 m2 m3 h
  | eq m1 m2 m3 => exact Laws.RoundTrip.eq m1 m2 m3 h
  | halt => exact Laws.RoundTrip.halt h

/-- Settles O7: a word that decodes is well-formed and is the encoding of its instruction, and encoding round-trips. -/
theorem decodeExactlyInvertsEncode : Obligations.DecodeExactlyInvertsEncode := by
  intro w i
  constructor
  · intro h
    exact ⟨wellFormed_of_decode h, BitVec.eq_of_toInt_eq ((toInt_encode i).trans (toInt_of_decode h).symm)⟩
  · rintro ⟨hwf, rfl⟩
    exact decode_encode hwf

/-- A word decodes exactly when its value is that of some well-formed instruction. -/
theorem exists_decode_iff {w : Word} : (∃ i, decode w = .ok i) ↔ ∃ i : Instr, i.WellFormed = true ∧ w.toInt = encodeNat i :=
  exists_congr fun _ =>
    ⟨fun h => ⟨wellFormed_of_decode h, toInt_of_decode h⟩,
      fun ⟨hwf, hw⟩ => (decode_eq_ok_iff_toInt (decode_encode hwf)).mpr hw⟩

/-- The legal instruction words (30_encoding.md R57). -/
def legalValues : List Int :=
  [1, 101, 1001, 1101, 2, 102, 1002, 1102, 3, 4, 104, 5, 105, 1005, 1105, 6, 106, 1006, 1106,
    7, 107, 1007, 1107, 8, 108, 1008, 1108, 99]

theorem encodeNat_mem_legalValues {i : Instr} (h : i.WellFormed = true) : (encodeNat i : Int) ∈ legalValues := by
  cases i with
  | add m1 m2 m3 | mul m1 m2 m3 | lt m1 m2 m3 | eq m1 m2 m3 => revert h; cases m1 <;> cases m2 <;> cases m3 <;> decide
  | jt m1 m2 | jf m1 m2 => cases m1 <;> cases m2 <;> decide
  | input m1 | output m1 => revert h; cases m1 <;> decide
  | halt => decide

theorem decodeNat_isOk_of_mem_legalValues : ∀ v ∈ legalValues, 0 ≤ v ∧ (decodeNat v.toNat).isOk = true := by decide

/-- Settles O8: the listed values are those of the well-formed instructions. -/
theorem exactlyTwentyEightWordsAreLegal : Obligations.ExactlyTwentyEightWordsAreLegal := by
  intro w
  constructor
  · intro h
    obtain ⟨i, hwf, hw⟩ := exists_decode_iff.mp h
    exact hw ▸ encodeNat_mem_legalValues hwf
  · intro h
    obtain ⟨hnonneg, hok⟩ := decodeNat_isOk_of_mem_legalValues _ h
    rw [decode_of_nonneg hnonneg]
    cases hd : decodeNat w.toInt.toNat with
    | ok i => exact ⟨i, rfl⟩
    | error r => rw [hd] at hok; cases hok

/-! ### The other refusals (30_encoding.md R60 to R62) -/

/-- The destinations of the opcode map, by opcode number (30_encoding.md R56). -/
theorem opnumDestpos_eq_some {x k : Nat} (h : opnumDestpos x = some k) :
    (x = 1 ∧ k = 3) ∨ (x = 2 ∧ k = 3) ∨ (x = 3 ∧ k = 1) ∨ (x = 7 ∧ k = 3) ∨ (x = 8 ∧ k = 3) := by
  unfold opnumDestpos at h
  split at h <;> cases h <;> decide

/-- A check made after two source parameters whose mode digits are legal is the one that fails. -/
theorem sourceModes_then_error {m : Nat} (h1 : dig m 0 ≤ 1) (h2 : dig m 1 ≤ 1) {rest : Mode → Mode → Except DecodeReason Instr}
    {r : DecodeReason} (hrest : ∀ m1 m2, rest m1 m2 = .error r) :
    (do rest (← sourceMode m 1) (← sourceMode m 2)) = .error r := by
  obtain ⟨m1, h1⟩ := exists_sourceMode_eq_ok (k := 1) h1
  obtain ⟨m2, h2⟩ := exists_sourceMode_eq_ok (k := 2) h2
  exact bind_error_iff.mpr (.inr ⟨m1, h1, bind_error_iff.mpr (.inr ⟨m2, h2, hrest m1 m2⟩)⟩)

/-- A check made after a parameter whose mode digit is 0 is the one that fails. -/
theorem destMode_then_error {m k : Nat} (hk : dig m (k - 1) = 0) {rest : Mode → Except DecodeReason Instr}
    {r : DecodeReason} (hrest : rest .position = .error r) : (do rest (← destMode m k)) = .error r :=
  bind_error_iff.mpr (.inr ⟨.position, destMode_eq_ok.mpr ⟨hk, rfl⟩, hrest⟩)

theorem noExcess_then_error {m n : Nat} (hn : m / 10 ^ n ≠ 0) (i : Instr) :
    (do noExcess m n; return i) = .error .excessDigits :=
  bind_error_iff.mpr (.inl (noExcess_eq_error.mpr ⟨hn, rfl⟩))

theorem destMode_one_then_error {m k : Nat} (hk : dig m (k - 1) = 1) (rest : Mode → Except DecodeReason Instr) :
    (do rest (← destMode m k)) = .error (.immediateDest k) :=
  bind_error_iff.mpr (.inl (destMode_eq_error.mpr (.inl ⟨hk, rfl⟩)))

theorem decodeNat_eq_immediateDest {w k : Nat} (hk : opnumDestpos (w % 100) = some k)
    (hlow : ∀ j, 1 ≤ j → j < k → dig w (j + 1) ≤ 1) (hone : dig w (k + 1) = 1) : decodeNat w = .error (.immediateDest k) := by
  have hlow' (j : Nat) (hj : 1 ≤ j) (hjk : j < k) : dig (w / 100) (j - 1) ≤ 1 :=
    (dig_div_hundred w hj).symm ▸ hlow j hj hjk
  have h3 (h : k = 3) (op : Mode → Mode → Mode → Instr) : decodeF3 op (w / 100) = .error (.immediateDest k) := by
    subst h
    exact sourceModes_then_error (hlow' 1 (by omega) (by omega)) (hlow' 2 (by omega) (by omega)) fun _ _ =>
      destMode_one_then_error ((dig_div_hundred w (by omega)).trans hone) _
  unfold decodeNat
  rcases opnumDestpos_eq_some hk with ⟨hop, rfl⟩ | ⟨hop, rfl⟩ | ⟨hop, rfl⟩ | ⟨hop, rfl⟩ | ⟨hop, rfl⟩ <;> rw [hop]
  · exact h3 rfl .add
  · exact h3 rfl .mul
  · exact destMode_one_then_error ((dig_div_hundred w (by omega)).trans hone) _
  · exact h3 rfl .lt
  · exact h3 rfl .eq

theorem decodeNat_eq_excessDigits {w n : Nat} (hn : opnumArity (w % 100) = some n)
    (hlegal : ∀ j, 1 ≤ j → j ≤ n → dig w (j + 1) ≤ 1)
    (hdest : ∀ k, opnumDestpos (w % 100) = some k → dig w (k + 1) = 0) (hex : w / 10 ^ (n + 2) ≠ 0) :
    decodeNat w = .error .excessDigits := by
  have hlegal' (j : Nat) (hj : 1 ≤ j) (hjn : j ≤ n) : dig (w / 100) (j - 1) ≤ 1 :=
    (dig_div_hundred w hj).symm ▸ hlegal j hj hjn
  have hdest' (k : Nat) (hk : 1 ≤ k) (h : opnumDestpos (w % 100) = some k) : dig (w / 100) (k - 1) = 0 :=
    (dig_div_hundred w hk).trans (hdest k h)
  have hex' : w / 100 / 10 ^ n ≠ 0 := by
    rwa [Nat.div_div_eq_div_mul, show 100 * 10 ^ n = 10 ^ (n + 2) by ring]
  have h3 (h : n = 3) (hd : dig (w / 100) 2 = 0) (op : Mode → Mode → Mode → Instr) :
      decodeF3 op (w / 100) = .error .excessDigits := by
    subst h
    exact sourceModes_then_error (hlegal' 1 (by omega) (by omega)) (hlegal' 2 (by omega) (by omega)) fun _ _ =>
      destMode_then_error hd (noExcess_then_error hex' _)
  have h2 (h : n = 2) (op : Mode → Mode → Instr) : decodeF2 op (w / 100) = .error .excessDigits := by
    subst h
    exact sourceModes_then_error (hlegal' 1 (by omega) (by omega)) (hlegal' 2 (by omega) (by omega)) fun _ _ =>
      noExcess_then_error hex' _
  unfold decodeNat
  rcases opnumArity_eq_some hn with ⟨hop, rfl⟩ | ⟨hop, rfl⟩ | ⟨hop, rfl⟩ | ⟨hop, rfl⟩ | ⟨hop, rfl⟩ |
    ⟨hop, rfl⟩ | ⟨hop, rfl⟩ | ⟨hop, rfl⟩ | ⟨hop, rfl⟩ <;> rw [hop] at hdest' ⊢
  · exact h3 rfl (hdest' 3 (by omega) rfl) .add
  · exact h3 rfl (hdest' 3 (by omega) rfl) .mul
  · exact destMode_then_error (hdest' 1 (by omega) rfl) (noExcess_then_error hex' _)
  · obtain ⟨m1, h1⟩ := exists_sourceMode_eq_ok (hlegal' 1 (by omega) (by omega))
    exact bind_error_iff.mpr (.inr ⟨m1, h1, noExcess_then_error hex' _⟩)
  · exact h2 rfl .jt
  · exact h2 rfl .jf
  · exact h3 rfl (hdest' 3 (by omega) rfl) .lt
  · exact h3 rfl (hdest' 3 (by omega) rfl) .eq
  · exact noExcess_then_error hex' _

/-- Settles O11: the checks are made in the order of the digits, and the excess comes last. -/
theorem negativeImmediateDestAndExcessDigitsAreRefused : Obligations.NegativeImmediateDestAndExcessDigitsAreRefused :=
  ⟨fun _ => decode_of_neg,
    fun _ _ hnonneg hk hlow hone => (decode_of_nonneg hnonneg).trans (decodeNat_eq_immediateDest hk hlow hone),
    fun _ _ hnonneg hn hlegal hdest hex =>
      (decode_of_nonneg hnonneg).trans (decodeNat_eq_excessDigits hn hlegal hdest hex)⟩

/-- Settles O12: the eleven words are fixed, and the decoder is evaluated on each. -/
theorem spelledWordsDecode : Obligations.SpelledWordsDecode := by
  unfold Obligations.SpelledWordsDecode
  decide

/-! ### The opcode table (30_encoding.md R154) -/

theorem exists_mode_of_digit_le_one {d : Nat} (h : d ≤ 1) : ∃ m : Mode, m.digit = d := by
  obtain rfl | rfl : d = 0 ∨ d = 1 := by omega
  · exact ⟨.position, rfl⟩
  · exact ⟨.immediate, rfl⟩

@[simp] theorem digitsMatch_value {w i r : Nat} {ms rs : List Nat} :
    digitsMatch w (i + 1) (9 :: ms) (r :: rs) = true ↔ dig w i = r ∧ digitsMatch w i ms rs = true := by
  simp [digitsMatch]

@[simp] theorem digitsMatch_field {w i r : Nat} {ms rs : List Nat} :
    digitsMatch w (i + 1) (0 :: ms) (r :: rs) = true ↔ dig w i ≤ 1 ∧ digitsMatch w i ms rs = true := by
  simp [digitsMatch]

section RowDigits

variable {n op : Nat} (hlt : n < 100000)
include hlt

/-- The rows of `add`, `mul`, `jt`, `jf`, `lt` and `eq`: two fields. -/
theorem value_of_two_fields (h : digitsMatch n 5 [9, 0, 0, 9, 9] [0, 0, 0, 0, op] = true) :
    ∃ m1 m2 : Mode, n = op + 100 * m1.digit + 1000 * m2.digit := by
  obtain ⟨h4, h3, h2, h1, h0, -⟩ := by simpa only [digitsMatch_value, digitsMatch_field] using h
  obtain ⟨m2, hm2⟩ := exists_mode_of_digit_le_one h3
  obtain ⟨m1, hm1⟩ := exists_mode_of_digit_le_one h2
  refine ⟨m1, m2, ?_⟩
  simp only [dig] at *
  omega

/-- The row of `out`: one field. -/
theorem value_of_one_field (h : digitsMatch n 5 [9, 9, 0, 9, 9] [0, 0, 0, 0, op] = true) :
    ∃ m1 : Mode, n = op + 100 * m1.digit := by
  obtain ⟨h4, h3, h2, h1, h0, -⟩ := by simpa only [digitsMatch_value, digitsMatch_field] using h
  obtain ⟨m1, hm1⟩ := exists_mode_of_digit_le_one h2
  refine ⟨m1, ?_⟩
  simp only [dig] at *
  omega

/-- The rows of `in` and `halt`: no field. -/
theorem value_of_no_field {tens : Nat} (h : digitsMatch n 5 [9, 9, 9, 9, 9] [0, 0, 0, tens, op] = true) :
    n = op + 10 * tens := by
  obtain ⟨h4, h3, h2, h1, h0, -⟩ := by simpa only [digitsMatch_value] using h
  simp only [dig] at *
  omega

end RowDigits

theorem matchesWord_eq_true {r : OpcodeRow} {w : Word} (h : r.matchesWord w = true) :
    ∃ n : Nat, w.toInt = n ∧ n < 100000 ∧ digitsMatch n 5 r.mask r.required = true := by
  simp only [OpcodeRow.matchesWord, Bool.and_eq_true, decide_eq_true_eq] at h
  obtain ⟨⟨hnonneg, hlt⟩, hdigits⟩ := h
  exact ⟨w.toInt.toNat, by omega, by omega, hdigits⟩

/-- A word that matches a row decodes to an instruction of that row's opcode number. -/
theorem decode_of_matchesWord {r : OpcodeRow} (hr : r ∈ opcodeTable) {w : Word} (h : r.matchesWord w = true) :
    ∃ i, decode w = .ok i ∧ r.opnum = i.opnum := by
  obtain ⟨n, hw, hlt, hdigits⟩ := matchesWord_eq_true h
  have hdecode (i : Instr) (hwf : i.WellFormed = true) (hn : n = encodeNat i) : ∃ i', decode w = .ok i' ∧ i.opnum = i'.opnum :=
    ⟨i, (decode_eq_ok_iff_toInt (decode_encode hwf)).mpr (hn ▸ hw), rfl⟩
  have htwo (op : Mode → Mode → Instr) {opnum : Nat} (hwf : ∀ m1 m2, (op m1 m2).WellFormed = true)
      (hop : ∀ m1 m2, (op m1 m2).opnum = opnum) (hmodes : ∀ m1 m2, modeDigits (op m1 m2).modes = m1.digit + 10 * m2.digit)
      (hd : digitsMatch n 5 [9, 0, 0, 9, 9] [0, 0, 0, 0, opnum] = true) : ∃ i, decode w = .ok i ∧ opnum = i.opnum := by
    obtain ⟨m1, m2, hn⟩ := value_of_two_fields hlt hd
    have henc : n = encodeNat (op m1 m2) := by rw [encodeNat, hop, hmodes]; omega
    exact hop m1 m2 ▸ hdecode _ (hwf m1 m2) henc
  simp only [opcodeTable, List.mem_cons, List.not_mem_nil, or_false] at hr
  rcases hr with rfl | rfl | rfl | rfl | rfl | rfl | rfl | rfl | rfl
  · exact htwo (fun m1 m2 => .add m1 m2 .position) (fun _ _ => rfl) (fun _ _ => rfl) (fun _ _ => rfl) hdigits
  · exact htwo (fun m1 m2 => .mul m1 m2 .position) (fun _ _ => rfl) (fun _ _ => rfl) (fun _ _ => rfl) hdigits
  · exact hdecode (.input .position) rfl (value_of_no_field hlt hdigits)
  · obtain ⟨m1, hn⟩ := value_of_one_field hlt hdigits
    exact hdecode (.output m1) rfl hn
  · exact htwo .jt (fun _ _ => rfl) (fun _ _ => rfl) (fun _ _ => rfl) hdigits
  · exact htwo .jf (fun _ _ => rfl) (fun _ _ => rfl) (fun _ _ => rfl) hdigits
  · exact htwo (fun m1 m2 => .lt m1 m2 .position) (fun _ _ => rfl) (fun _ _ => rfl) (fun _ _ => rfl) hdigits
  · exact htwo (fun m1 m2 => .eq m1 m2 .position) (fun _ _ => rfl) (fun _ _ => rfl) (fun _ _ => rfl) hdigits
  · exact hdecode .halt rfl (value_of_no_field hlt hdigits)

theorem exists_matchesWord_encode {i : Instr} (h : i.WellFormed = true) : ∃ r ∈ opcodeTable, r.matchesWord (encode i) = true := by
  cases i with
  | add m1 m2 m3 | mul m1 m2 m3 | lt m1 m2 m3 | eq m1 m2 m3 => revert h; cases m1 <;> cases m2 <;> cases m3 <;> decide
  | jt m1 m2 | jf m1 m2 => cases m1 <;> cases m2 <;> decide
  | input m1 | output m1 => revert h; cases m1 <;> decide
  | halt => decide

/-- A row and an instruction of one opcode number agree in every column. -/
theorem columns_of_opnum {r : OpcodeRow} (hr : r ∈ opcodeTable) {i : Instr} (h : r.opnum = i.opnum) :
    r.mnemonic = i.mnemonic ∧ r.arity = i.arity ∧ r.width = i.width ∧ r.destpos = i.destpos := by
  simp only [opcodeTable, List.mem_cons, List.not_mem_nil, or_false] at hr
  rcases hr with rfl | rfl | rfl | rfl | rfl | rfl | rfl | rfl | rfl <;> cases i <;> cases h <;> exact ⟨rfl, rfl, rfl, rfl⟩

theorem opcodeTable_pairwise_opnum : opcodeTable.Pairwise (fun r r' => r.opnum ≠ r'.opnum) := by decide

theorem opnum_of_matchesWord {r : OpcodeRow} (hr : r ∈ opcodeTable) {w : Word} {i : Instr} (hw : decode w = .ok i)
    (h : r.matchesWord w = true) : r.opnum = i.opnum := by
  obtain ⟨j, hj, hop⟩ := decode_of_matchesWord hr h
  cases hj.symm.trans hw
  exact hop

/-- Settles O13: a row holds the words of one opcode number, and the opcode number fixes every column. -/
theorem opcodeTableAgreesWithTheDecoder : Obligations.OpcodeTableAgreesWithTheDecoder := by
  refine ⟨fun w => ⟨?_, ?_⟩, ?_, ?_⟩
  · rintro ⟨i, hi⟩
    obtain ⟨hwf, rfl⟩ := (decodeExactlyInvertsEncode w i).mp hi
    exact exists_matchesWord_encode hwf
  · rintro ⟨r, hr, h⟩
    obtain ⟨i, hi, _⟩ := decode_of_matchesWord hr h
    exact ⟨i, hi⟩
  · intro w i hi r hr h
    have hop := opnum_of_matchesWord hr hi h
    obtain ⟨hmnemonic, hcolumns⟩ := columns_of_opnum hr hop
    exact ⟨hmnemonic, hop, hcolumns⟩
  · refine opcodeTable_pairwise_opnum.imp_of_mem fun hr hr' hne w ⟨h, h'⟩ => ?_
    obtain ⟨i, hi, hop⟩ := decode_of_matchesWord hr h
    exact hne (hop.trans (opnum_of_matchesWord hr' hi h').symm)

/-! ### An assembled instruction (30_encoding.md R67, R68) -/

theorem assemble_append_instr (before after : List AsmLine) (i : Instr) (params : List Word) :
    assemble (before ++ .instr i params :: after) = assemble before ++ (encode i :: params ++ assemble after) := by
  simp [assemble, AsmLine.cells]

/-- Cell `k` of the memory of `P ++ Q`, counted from the end of `P`. -/
theorem Memory.get_ofImage_append (P : List Word) {Q : List Word} {k : Nat} (hk : k < Q.length) :
    (Memory.ofImage (P ++ Q)).get (P.length + k) = Q[k] := by
  rw [Memory.get_ofImage (P ++ Q) (by simpa using hk), List.getElem_append_right (Nat.le_add_right _ _)]
  simp

/-- Settles O14: the cells from the instruction's address on are its word and then the numbers written. -/
theorem anAssembledInstructionIsFetchedAsWritten : Obligations.AnAssembledInstructionIsFetchedAsWritten := by
  intro config before after i params I hwf s
  have hmem : s.mem = .ofImage (assemble before ++ (encode i :: params ++ assemble after)) :=
    congrArg Memory.ofImage (assemble_append_instr before after i params)
  have hlen : s.mem.len = (assemble before).length + (1 + params.length + (assemble after).length) := by
    simp [hmem]; omega
  have hget {k : Nat} (hk : k < (encode i :: params ++ assemble after).length) :
      s.mem.get ((assemble before).length + k) = (encode i :: params ++ assemble after)[k] :=
    hmem ▸ Memory.get_ofImage_append (assemble before) hk
  refine ⟨fetchInstr_eq_ok.mpr ⟨?_, ?_⟩, fun k hk => param_eq_ok.mpr ⟨?_, ?_⟩⟩
  · show (assemble before).length < s.mem.len
    omega
  · have h0 : s.mem.get (assemble before).length = encode i := hget (k := 0) (by simp)
    exact h0 ▸ decode_encode hwf
  · show (assemble before).length + (k + 1) < s.mem.len
    omega
  · refine (hget (k := k + 1) (by simp; omega)).trans ?_
    simp [hk]

/-! ### Memory and the destination (20_memory.md R32, R37, R46) -/

/-- Settles O3: the two lists of cells are canonical and read alike, so they are one list. -/
theorem canonicalMemoriesReadingAlikeAreEqual : Obligations.CanonicalMemoriesReadingAlikeAreEqual := by
  rintro ⟨len, cells⟩ ⟨len', cells'⟩ hwf hwf' hlen hread
  obtain rfl : len = len' := hlen
  exact congrArg (Memory.mk len) (cells_ext hwf hwf' hread)

/-- The two faults of `WriteTarget(k)` (20_memory.md R37): its parameter cell, or the cell it names, is out of range. -/
theorem writeTarget_eq_error {s : State} {k : Nat} {f : FaultRecord} :
    writeTarget s k = .error f ↔ param s k = .error f ∨
      ∃ p, param s k = .ok p ∧ ¬ s.mem.InRange p.toInt ∧ f = .addressFault p.toInt s.ip .store := by
  unfold writeTarget
  rw [bind_error_iff]
  refine or_congr_right (exists_congr fun p => and_congr_right fun _ => ?_)
  by_cases hr : s.mem.InRange p.toInt
  · rw [if_pos hr]
    exact ⟨fun h => (by cases h), fun h => absurd hr h.1⟩
  · simp [hr, eq_comm]

/-- Settles O5: the parameter cell is read first, then the address it holds is checked. -/
theorem writeTargetIsTheRawAddress : Obligations.WriteTargetIsTheRawAddress := by
  intro s k p hp
  have hparam (hk : s.ip + k < s.mem.len) : param s k = .ok p := param_eq_ok.mpr ⟨hk, hp⟩
  refine ⟨fun hk => ?_, fun hk h0 hlen => ?_, fun hk hout => ?_⟩
  · exact writeTarget_eq_error.mpr (.inl (param_eq_error.mpr ⟨hk, rfl⟩))
  · exact writeTarget_eq_ok.mpr ⟨p, hparam hk, rfl, h0, hlen⟩
  · exact writeTarget_eq_error.mpr (.inr ⟨p, hparam hk, hout, rfl⟩)

/-- A read of another address does not see a write, in range or not. -/
theorem memRead_set_other {s : State} {t : Int} (ht : s.mem.InRange t) (v : Word) (access : Access) {x : Int} (hx : x ≠ t) :
    memRead { s with mem := s.mem.set t.toNat v } access x = memRead s access x := by
  by_cases hr : s.mem.InRange x
  · have hget : (s.mem.set t.toNat v).get x.toNat = s.mem.get x.toNat := s.mem.get_set_other v (by omega)
    have hread : memRead s access x = .ok (s.mem.get x.toNat) := memRead_eq_ok.mpr ⟨hr, rfl⟩
    rw [hread]
    exact memRead_eq_ok.mpr ⟨hr, hget⟩
  · have hread : memRead s access x = .error (.addressFault x s.ip access) := memRead_eq_error.mpr ⟨hr, rfl⟩
    rw [hread]
    exact memRead_eq_error.mpr ⟨hr, rfl⟩

/-- Settles O6: the written cell is in range and reads as `v`, for the fetch as for every other access. -/
theorem aWriteIsSeenByTheNextAccess : Obligations.AWriteIsSeenByTheNextAccess := by
  intro s s' t v hwrite
  obtain ⟨ht, rfl⟩ := memWrite_eq_ok.mp hwrite
  have hlt : t.toNat < s.mem.len := by omega
  have hget : (s.mem.set t.toNat v).get t.toNat = v := s.mem.get_set_self t.toNat v
  refine ⟨fun access => memRead_eq_ok.mpr ⟨ht, hget⟩, fun access x hx => memRead_set_other ht v access hx, fun i hi => ?_,
    fun reason hr => ?_⟩
  · exact fetchInstr_eq_ok.mpr ⟨hlt, hget.symm ▸ hi⟩
  · exact fetchInstr_eq_error.mpr (.inr ⟨hlt, reason, hget.symm ▸ hr, congrArg (FaultRecord.decodeFault t.toNat · reason) hget.symm⟩)

/-! ### What an instruction raises -/

/-- `f` is what instruction `i` raises in `s` (60_exceptions.md R129), beside `Commits`. -/
def Raises (i : Instr) (s : State) (f : FaultRecord) : Prop :=
  match i with
  | .add m1 m2 _ => storeBinary s m1 m2 (narrow s .add) = .error f
  | .mul m1 m2 _ => storeBinary s m1 m2 (narrow s .mul) = .error f
  | .lt m1 m2 _ => storeBinary s m1 m2 (fun a b => .ok (truthWord (lessThan a b))) = .error f
  | .eq m1 m2 _ => storeBinary s m1 m2 (fun a b => .ok (truthWord (equals a b))) = .error f
  | .input _ => writeTarget s 1 = .error f ∨
      ∃ t, writeTarget s 1 = .ok t ∧ s.inq = [] ∧ s.config.suspend = false ∧ f = .inputStarvation s.ip
  | .output m1 => readOperand s 1 m1 = .error f
  | .jt m1 m2 => jumpWhen s m1 m2 (fun c => c != 0) = .error f
  | .jf m1 m2 => jumpWhen s m1 m2 (fun c => c == 0) = .error f
  | .halt => False

section Input

variable {s : State} (m1 : Mode) {t : Int}

theorem exec_input_of_error {f : FaultRecord} (hf : writeTarget s 1 = .error f) : exec (.input m1) s = .next (raise s f) :=
  settle_eq_next.mpr (.inr ⟨f, bind_error_iff.mpr (.inl hf), rfl⟩)

variable (ht : writeTarget s 1 = .ok t)
include ht

theorem exec_input_of_empty (hq : s.inq = []) :
    exec (.input m1) s = .next (if s.config.suspend then s else raise s (.inputStarvation s.ip)) := by
  have hpop : s.popInput = none := State.popInput_eq_none.mpr hq
  simp only [exec, execInput, ht, hpop, bind, Except.bind]
  cases s.config.suspend <;> rfl

theorem exec_input_of_cons {v : Word} {rest : List Word} (hq : s.inq = v :: rest) :
    exec (.input m1) s = .next { s with mem := s.mem.set t.toNat v, ip := s.ip + 2, inq := rest } := by
  have hpop : s.popInput = some (v, { s with inq := rest }) := State.popInput_eq_some.mpr ⟨hq, rfl⟩
  have hwrite : memWrite { s with inq := rest } t v = .ok { s with inq := rest, mem := s.mem.set t.toNat v } :=
    memWrite_eq_ok.mpr ⟨inRange_of_writeTarget ht, rfl⟩
  simp only [exec, execInput, ht, hpop, hwrite, bind, Except.bind]
  rfl

end Input

theorem exec_of_commits {i : Instr} {s s' : State} (h : Commits i s s') : exec i s = .next s' := by
  cases i with
  | add | mul => exact settle_eq_next.mpr (.inl (storeBinary_eq_ok.mpr h))
  | lt | eq =>
    obtain ⟨a, b, t, ha, hb, ht, rfl⟩ := h
    exact settle_eq_next.mpr (.inl (storeBinary_eq_ok.mpr ⟨a, b, t, _, ha, hb, ht, rfl, rfl⟩))
  | input m1 =>
    obtain ⟨t, ht, ⟨hq, hsuspend, rfl⟩ | ⟨v, rest, hq, rfl⟩⟩ := h
    · rw [exec_input_of_empty m1 ht hq, if_pos hsuspend]
    · exact exec_input_of_cons m1 ht hq
  | output =>
    obtain ⟨a, ha, rfl⟩ := h
    exact exec_output_of_ok ha
  | jt | jf =>
    obtain ⟨c, t, hc, ht, h⟩ := h
    exact settle_eq_next.mpr (.inl (jumpWhen_eq_ok.mpr ⟨c, t, hc, ht, by simpa using h⟩))
  | halt => obtain rfl := h; exact exec_halt s

theorem exec_of_raises {i : Instr} {s : State} {f : FaultRecord} (h : Raises i s f) : exec i s = .next (raise s f) := by
  cases i with
  | add | mul | lt | eq | jt | jf => exact settle_eq_next.mpr (.inr ⟨f, h, rfl⟩)
  | input m1 =>
    rcases h with hf | ⟨t, ht, hq, hsuspend, rfl⟩
    · exact exec_input_of_error m1 hf
    · rw [exec_input_of_empty m1 ht hq, if_neg (by simp [hsuspend])]
  | output => exact exec_output_of_error h
  | halt => cases h

/-- Everything an instruction can do, with the record it raises: the converse of `exec_of_commits` and `exec_of_raises`. -/
theorem commits_or_raises_of_exec {i : Instr} {s s' : State} (h : exec i s = .next s') :
    Commits i s s' ∨ ∃ f, Raises i s f ∧ s' = raise s f := by
  cases i with
  | add | mul => exact (settle_eq_next.mp h).imp_left storeBinary_eq_ok.mp
  | lt | eq =>
    refine (settle_eq_next.mp h).imp_left fun hok => ?_
    obtain ⟨a, b, t, v, ha, hb, ht, hv, he⟩ := storeBinary_eq_ok.mp hok
    cases hv
    exact ⟨a, b, t, ha, hb, ht, he⟩
  | jt | jf =>
    refine (settle_eq_next.mp h).imp_left fun hok => ?_
    obtain ⟨c, t, hc, ht, hjump⟩ := jumpWhen_eq_ok.mp hok
    exact ⟨c, t, hc, ht, by simpa using hjump⟩
  | output m1 =>
    cases ha : readOperand s 1 m1 with
    | ok a => rw [exec_output_of_ok ha] at h; cases h; exact .inl ⟨a, ha, rfl⟩
    | error f => rw [exec_output_of_error ha] at h; cases h; exact .inr ⟨f, ha, rfl⟩
  | input m1 =>
    cases ht : writeTarget s 1 with
    | error f => rw [exec_input_of_error m1 ht] at h; cases h; exact .inr ⟨f, .inl ht, rfl⟩
    | ok t =>
      cases hq : s.inq with
      | cons v rest => rw [exec_input_of_cons m1 ht hq] at h; cases h; exact .inl ⟨t, ht, .inr ⟨v, rest, hq, rfl⟩⟩
      | nil =>
        rw [exec_input_of_empty m1 ht hq] at h
        cases hsuspend : s.config.suspend <;> rw [hsuspend] at h <;> cases h
        · exact .inr ⟨_, .inr ⟨t, ht, hq, hsuspend, rfl⟩, rfl⟩
        · exact .inl ⟨t, ht, .inl ⟨hq, hsuspend, rfl⟩⟩
  | halt => rw [exec_halt] at h; cases h; exact .inl rfl

/-- Everything a step can be, with the record it raises. -/
theorem step_eq_next_cases {s s' : State} (h : step s = .next s') :
    s.status = .running ∧
      ((∃ i, fetchInstr s = .ok i ∧ (Commits i s s' ∨ ∃ f, Raises i s f ∧ s' = raise s f)) ∨
        ∃ f, fetchInstr s = .error f ∧ s' = raise s f) := by
  obtain ⟨hs, _⟩ := step_cases h
  refine ⟨hs, ?_⟩
  cases hf : fetchInstr s with
  | error f => rw [step_of_fetch_error hs hf] at h; cases h; exact .inr ⟨f, rfl, rfl⟩
  | ok i => rw [step_of_fetch hs hf] at h; exact .inl ⟨i, rfl, commits_or_raises_of_exec h⟩

/-! ### Faults (60_exceptions.md R121, R127 to R129) -/

/-- Settles O19: `raise` is an update of the two fields. -/
theorem raiseStoresTheRecordAndNothingElse : Obligations.RaiseStoresTheRecordAndNothingElse := fun s f =>
  ⟨raise_fault s f, raise_status s f, raise_mem s f, raise_ip s f, raise_inq s f, raise_outq s f, raise_config s f⟩

section NoDecodeFault

variable {s : State} {ip : Nat} {raw : Word} {reason : DecodeReason}

theorem param_ne_decodeFault (k : Nat) : param s k ≠ .error (.decodeFault ip raw reason) := fun h => by
  obtain ⟨_, he⟩ := param_eq_error.mp h
  cases he

theorem readOperand_ne_decodeFault (k : Nat) (m : Mode) : readOperand s k m ≠ .error (.decodeFault ip raw reason) := fun h => by
  rcases readOperand_eq_error.mp h with h | ⟨_, p, _, _, he⟩
  · exact param_ne_decodeFault k h
  · cases he

theorem writeTarget_ne_decodeFault (k : Nat) : writeTarget s k ≠ .error (.decodeFault ip raw reason) := fun h => by
  rcases writeTarget_eq_error.mp h with h | ⟨p, _, _, he⟩
  · exact param_ne_decodeFault k h
  · cases he

theorem narrow_ne_decodeFault (op : ArithOp) (a b : Word) : narrow s op a b ≠ .error (.decodeFault ip raw reason) := fun h => by
  unfold narrow at h
  dsimp only at h
  split at h
  · cases h
  · split at h <;> cases h

theorem storeBinary_ne_decodeFault (m1 m2 : Mode) {result : Word → Word → Except FaultRecord Word}
    (hr : ∀ a b, result a b ≠ .error (.decodeFault ip raw reason)) :
    storeBinary s m1 m2 result ≠ .error (.decodeFault ip raw reason) := fun h => by
  rcases storeBinary_eq_error.mp h with h | ⟨a, _, h | ⟨b, _, h | ⟨t, _, h⟩⟩⟩
  · exact readOperand_ne_decodeFault 1 m1 h
  · exact readOperand_ne_decodeFault 2 m2 h
  · exact writeTarget_ne_decodeFault 3 h
  · exact hr a b h

theorem jumpWhen_ne_decodeFault (m1 m2 : Mode) (taken : Word → Bool) :
    jumpWhen s m1 m2 taken ≠ .error (.decodeFault ip raw reason) := fun h => by
  rcases jumpWhen_eq_error.mp h with h | ⟨c, _, h | ⟨t, _, _, _, he⟩⟩
  · exact readOperand_ne_decodeFault 1 m1 h
  · exact readOperand_ne_decodeFault 2 m2 h
  · cases he

/-- A decoded instruction raises no DecodeFault (60_exceptions.md R121). -/
theorem not_raises_decodeFault (i : Instr) : ¬ Raises i s (.decodeFault ip raw reason) := fun h => by
  cases i with
  | add m1 m2 | mul m1 m2 => exact storeBinary_ne_decodeFault m1 m2 (narrow_ne_decodeFault _) h
  | lt m1 m2 | eq m1 m2 => exact storeBinary_ne_decodeFault m1 m2 (fun _ _ h => by cases h) h
  | jt m1 m2 | jf m1 m2 => exact jumpWhen_ne_decodeFault m1 m2 _ h
  | output m1 => exact readOperand_ne_decodeFault 1 m1 h
  | input m1 =>
    rcases h with h | ⟨_, _, _, _, he⟩
    · exact writeTarget_ne_decodeFault 1 h
    · cases he
  | halt => exact h

end NoDecodeFault

/-- Settles O18: only the fetch can raise a DecodeFault, and its record holds the cell and the decoder's reason. -/
theorem decodeFaultExactlyWhenDecodeFails : Obligations.DecodeFaultExactlyWhenDecodeFails := by
  intro s raw reason hs
  constructor
  · intro h
    obtain ⟨_, ⟨i, _, hc | ⟨f, hr, he⟩⟩ | ⟨f, hf, he⟩⟩ := step_eq_next_cases h
    · exact absurd rfl (hc.status_ne_faulted hs)
    · obtain rfl : _ = f := Option.some.inj (congrArg State.fault he)
      exact absurd hr (not_raises_decodeFault i)
    · obtain rfl : _ = f := Option.some.inj (congrArg State.fault he)
      rcases fetchInstr_eq_error.mp hf with ⟨_, he⟩ | ⟨hip, reason', hd, he⟩ <;> cases he
      exact ⟨hip, rfl, hd⟩
  · rintro ⟨hip, rfl, hd⟩
    exact step_of_decode_error hs hip hd

/-- Settles O15: `step` on a fetch that succeeds. -/
theorem stepRunsTheDecodedInstruction : Obligations.StepRunsTheDecodedInstruction := fun _ _ hs hip hd =>
  step_of_fetch hs (fetchInstr_eq_ok.mpr ⟨hip, hd⟩)

/-- Settles O17: `step` on a fetch whose address is past the last cell. -/
theorem fetchOutOfRangeRaisesAddressFault : Obligations.FetchOutOfRangeRaisesAddressFault := fun _ hs hip =>
  step_of_fetch_error hs (fetchInstr_eq_error.mpr (.inl ⟨hip, rfl⟩))

/-! ### What a commit changes (40_execution_engine.md R76, R78, R84) -/

section Commits

variable {i : Instr} {s s' : State} (h : Commits i s s')
include h

/-- What a commit keeps: `halt` sets the status alone, any other instruction leaves the parameters, the status and the fault. -/
theorem Commits.cases_halt :
    (i = .halt ∧ s' = { s with status := .halted }) ∨
      (s'.status = s.status ∧ s'.fault = s.fault ∧ s'.config = s.config) := by
  cases i with
  | add | mul => obtain ⟨_, _, _, _, _, _, _, _, rfl⟩ := h; exact .inr ⟨rfl, rfl, rfl⟩
  | lt | eq => obtain ⟨_, _, _, _, _, _, rfl⟩ := h; exact .inr ⟨rfl, rfl, rfl⟩
  | input => obtain ⟨_, _, ⟨_, _, rfl⟩ | ⟨_, _, _, rfl⟩⟩ := h <;> exact .inr ⟨rfl, rfl, rfl⟩
  | output => obtain ⟨_, _, rfl⟩ := h; exact .inr ⟨rfl, rfl, rfl⟩
  | jt | jf => obtain ⟨_, _, _, _, ⟨_, _, rfl⟩ | ⟨_, rfl⟩⟩ := h <;> exact .inr ⟨rfl, rfl, rfl⟩
  | halt => exact .inl ⟨rfl, h⟩

/-- Memory is written at the resolved destination, if there is one and the instruction does not wait. -/
theorem Commits.mem :
    (i.destpos = none ∧ s'.mem = s.mem) ∨
      ∃ k t, i.destpos = some k ∧ writeTarget s k = .ok t ∧ (s'.mem = s.mem ∨ ∃ v, s'.mem = s.mem.set t.toNat v) := by
  cases i with
  | add | mul => obtain ⟨_, _, t, v, _, _, ht, _, rfl⟩ := h; exact .inr ⟨3, t, rfl, ht, .inr ⟨v, rfl⟩⟩
  | lt | eq => obtain ⟨_, _, t, _, _, ht, rfl⟩ := h; exact .inr ⟨3, t, rfl, ht, .inr ⟨_, rfl⟩⟩
  | input =>
    obtain ⟨t, ht, ⟨_, _, rfl⟩ | ⟨v, _, _, rfl⟩⟩ := h
    · exact .inr ⟨1, t, rfl, ht, .inl rfl⟩
    · exact .inr ⟨1, t, rfl, ht, .inr ⟨v, rfl⟩⟩
  | output => obtain ⟨_, _, rfl⟩ := h; exact .inl ⟨rfl, rfl⟩
  | jt | jf => obtain ⟨_, _, _, _, ⟨_, _, rfl⟩ | ⟨_, rfl⟩⟩ := h <;> exact .inl ⟨rfl, rfl⟩
  | halt => obtain rfl := h; exact .inl ⟨rfl, rfl⟩

/-- The queues are untouched, but for the front of `inq` by `in` and the back of `outq` by `out`. -/
theorem Commits.queues :
    (s'.inq = s.inq ∧ s'.outq = s.outq) ∨
      (∃ m v t, i = .input m ∧ s.inq = v :: s'.inq ∧ writeTarget s 1 = .ok t ∧ s'.mem = s.mem.set t.toNat v ∧ s'.outq = s.outq) ∨
      ∃ m a, i = .output m ∧ readOperand s 1 m = .ok a ∧ s'.outq = s.outq ++ [a] ∧ s'.inq = s.inq := by
  cases i with
  | add | mul => obtain ⟨_, _, _, _, _, _, _, _, rfl⟩ := h; exact .inl ⟨rfl, rfl⟩
  | lt | eq => obtain ⟨_, _, _, _, _, _, rfl⟩ := h; exact .inl ⟨rfl, rfl⟩
  | input m =>
    obtain ⟨t, ht, ⟨_, _, rfl⟩ | ⟨v, _, hq, rfl⟩⟩ := h
    · exact .inl ⟨rfl, rfl⟩
    · exact .inr (.inl ⟨m, v, t, rfl, hq, ht, rfl, rfl⟩)
  | output m => obtain ⟨a, ha, rfl⟩ := h; exact .inr (.inr ⟨m, a, rfl, ha, rfl, rfl⟩)
  | jt | jf => obtain ⟨_, _, _, _, ⟨_, _, rfl⟩ | ⟨_, rfl⟩⟩ := h <;> exact .inl ⟨rfl, rfl⟩
  | halt => obtain rfl := h; exact .inl ⟨rfl, rfl⟩

end Commits

/-- Settles O20: a commit halts at `halt` or keeps status and fault, and any other step is a raise. -/
theorem everyStepCommitsHaltsOrRaisesPrecisely : Obligations.EveryStepCommitsHaltsOrRaisesPrecisely := by
  intro s s' h
  obtain ⟨hs, ⟨i, hfetch, _, hc⟩ | ⟨f, hip, rfl⟩⟩ := step_cases h
  · refine ⟨hs, ?_⟩
    rcases hc.cases_halt with ⟨rfl, he⟩ | ⟨hstatus, hfault, _⟩
    · exact .inr (.inl ⟨hfetch, he⟩)
    · exact .inl ⟨hstatus.trans hs, hfault⟩
  · exact ⟨hs, .inr (.inr ⟨f, hip, rfl⟩)⟩

/-- Settles O22: a raise keeps memory and the queues, and a commit writes the destination that resolved. -/
theorem aStepWritesOnlyWhatItsInstructionNames : Obligations.AStepWritesOnlyWhatItsInstructionNames := by
  intro s s' i hfetch h
  obtain ⟨_, ⟨j, hj, _, hc⟩ | ⟨f, _, rfl⟩⟩ := step_cases h
  case inr => simp
  obtain rfl : j = i := Except.ok.inj (hj.symm.trans hfetch)
  refine ⟨fun hnone => ?_, fun k t hk ht x hx => ?_, fun k f hk hf => ?_, ?_, ?_⟩
  · rcases hc.mem with ⟨_, hmem⟩ | ⟨k, t, hk, _⟩
    · exact hmem
    · cases hnone.symm.trans hk
  · rcases hc.mem with ⟨_, hmem⟩ | ⟨k', t', hk', ht', hmem | ⟨v, hmem⟩⟩
    · rw [hmem]
    · rw [hmem]
    · obtain rfl : k = k' := Option.some.inj (hk.symm.trans hk')
      obtain rfl : t = t' := Except.ok.inj (ht.symm.trans ht')
      obtain ⟨hnonneg, _⟩ := inRange_of_writeTarget ht
      rw [hmem]
      exact s.mem.get_set_other v (by omega)
  · rcases hc.mem with ⟨_, hmem⟩ | ⟨k', t, hk', ht, _⟩
    · exact hmem
    · obtain rfl : k = k' := Option.some.inj (hk.symm.trans hk')
      cases hf.symm.trans ht
  · rcases hc.queues with ⟨hq, _⟩ | ⟨m, v, t, hi, hq, ht, hmem, _⟩ | ⟨m, a, _, _, _, hq⟩
    · exact .inl hq
    · exact .inr ⟨m, v, t, hi, hq, ht, by rw [hmem, Memory.get_set_self]⟩
    · exact .inl hq
  · rcases hc.queues with ⟨_, hq⟩ | ⟨m, v, t, _, _, _, _, hq⟩ | ⟨m, a, hi, ha, hq, _⟩
    · exact .inl hq
    · exact .inl hq
    · exact .inr ⟨m, a, hi, ha, hq⟩

/-! ### `add` and `mul` (41_arithmetic.md R85 to R87) -/

/-- Under OVERFLOW = wrap the result is the one word congruent to the exact result (41_arithmetic.md R85). -/
theorem narrow_wrap_congruent {s : State} (hc : s.config.overflow = .wrap) (op : ArithOp) (a b : Word) :
    ∃ v : Word, narrow s op a b = .ok v ∧ v.toInt % 2 ^ 64 = op.exact a.toInt b.toInt % 2 ^ 64 := by
  by_cases hfits : FitsWord (op.exact a.toInt b.toInt)
  · exact ⟨_, narrow_of_fits hfits, by rw [toInt_wordOf hfits]⟩
  · refine ⟨_, narrow_wrap hfits hc, ?_⟩
    rw [toInt_wordOf]
    · unfold wordMin wordBits
      omega
    · unfold FitsWord wordMin wordMax wordBits
      omega

section Operands

variable {s : State} {m1 m2 : Mode} {a b : Word} {t : Int}
  (ha : readOperand s 1 m1 = .ok a) (hb : readOperand s 2 m2 = .ok b) (ht : writeTarget s 3 = .ok t)
include ha hb ht

theorem storeBinary_narrow_of_fits {op : ArithOp} (hfits : FitsWord (op.exact a.toInt b.toInt)) :
    ∃ s', settle s (storeBinary s m1 m2 (narrow s op)) = .next s' ∧ s.StoresOne s' t (op.exact a.toInt b.toInt) 4 ∧
      s'.inq = s.inq := by
  have hstores := storeBinary_stores ha hb ht (narrow_of_fits (s := s) hfits)
  rwa [toInt_wordOf hfits] at hstores

theorem storeBinary_narrow_wrap (hc : s.config.overflow = .wrap) (op : ArithOp) :
    ∃ s' v, settle s (storeBinary s m1 m2 (narrow s op)) = .next s' ∧ s.StoresOne s' t v 4 ∧ s'.inq = s.inq ∧
      wordMin ≤ v ∧ v ≤ wordMax ∧ v % 2 ^ 64 = op.exact a.toInt b.toInt % 2 ^ 64 := by
  obtain ⟨v, hv, hcongr⟩ := narrow_wrap_congruent hc op a b
  obtain ⟨s', hexec, hstores, hinq⟩ := storeBinary_stores ha hb ht hv
  obtain ⟨hmin, hmax⟩ := Word.fits v
  exact ⟨s', v.toInt, hexec, hstores, hinq, hmin, hmax, hcongr⟩

theorem storeBinary_narrow_fault (hc : s.config.overflow = .fault) {op : ArithOp} (hfits : ¬ FitsWord (op.exact a.toInt b.toInt)) :
    settle s (storeBinary s m1 m2 (narrow s op)) = .next (raise s (.arithmeticFault s.ip op a b)) :=
  settle_eq_next.mpr (.inr ⟨_, storeBinary_eq_error.mpr (.inr ⟨a, ha, .inr ⟨b, hb, .inr ⟨t, ht, narrow_fault hfits hc⟩⟩⟩), rfl⟩)

end Operands

/-- Settles O23: format F3 with the result of `narrow` on an exact sum that fits. -/
theorem addStoresTheExactSum : Obligations.AddStoresTheExactSum := fun _ _ _ _ _ _ _ ha hb ht hmin hmax =>
  storeBinary_narrow_of_fits (op := .add) ha hb ht ⟨hmin, hmax⟩

/-- Settles O24: format F3 with the result of `narrow` on an exact product that fits. -/
theorem mulStoresTheExactProduct : Obligations.MulStoresTheExactProduct := fun _ _ _ _ _ _ _ ha hb ht hmin hmax =>
  storeBinary_narrow_of_fits (op := .mul) ha hb ht ⟨hmin, hmax⟩

/-- Settles O25: `narrow` is the only check left, and it fails. -/
theorem arithmeticOutOfRangeRaises : Obligations.ArithmeticOutOfRangeRaises := fun _ _ _ _ _ _ _ hc ha hb ht =>
  ⟨storeBinary_narrow_fault (op := .add) ha hb ht hc, storeBinary_narrow_fault (op := .mul) ha hb ht hc⟩

/-- Settles O26: `narrow` never fails under wrap, and its word is congruent to the exact result. -/
theorem arithmeticWrapsModuloTheWordSize : Obligations.ArithmeticWrapsModuloTheWordSize := fun _ _ _ _ _ _ _ hc ha hb ht =>
  ⟨storeBinary_narrow_wrap ha hb ht hc .add, storeBinary_narrow_wrap ha hb ht hc .mul⟩

/-! ### `in` (42_io.md R89) -/

/-- Settles O28: the front of the queue is the word stored. -/
theorem inStoresTheOldestInput : Obligations.InStoresTheOldestInput := by
  intro s m1 t v rest ht hq
  have hstores := State.storesOne_set (inRange_of_writeTarget ht) v 2
  exact ⟨_, exec_input_of_cons m1 ht hq, { hstores with }, rfl⟩

/-- An `in` that left the machine running where it stood is waiting (log entry 8). -/
theorem stepReply_of_wait {s : State} {m : Mode} (hs : s.status = .running) (hfetch : fetchInstr s = .ok (.input m)) :
    stepReply s s = .needsInput := by
  simp [stepReply, hfetch, hs]

/-- Settles O29: with the queue empty SUSPEND alone decides. -/
theorem inOnAnEmptyQueueStarvesOrWaits : Obligations.InOnAnEmptyQueueStarvesOrWaits := by
  intro s m1 t ht hq
  rw [exec_input_of_empty m1 ht hq]
  refine ⟨fun hsuspend => ?_, fun hsuspend => ?_, fun _ => stepReply_of_wait⟩
  · rw [if_neg (by simp [hsuspend])]
    rfl
  · rw [if_pos hsuspend]

/-! ### Jumps (43_jumps.md R93 to R96) -/

section Jump

variable {s : State} {m1 m2 : Mode} {c t : Word} {taken : Word → Bool}
  (hc : readOperand s 1 m1 = .ok c) (ht : readOperand s 2 m2 = .ok t)
include hc ht

theorem jumpWhen_taken (hk : taken c = true) (hr : s.mem.InRange t.toInt) :
    settle s (jumpWhen s m1 m2 taken) = .next { s with ip := t.toInt.toNat } :=
  settle_eq_next.mpr (.inl (jumpWhen_eq_ok.mpr ⟨c, t, hc, ht, .inl ⟨hk, hr, rfl⟩⟩))

theorem jumpWhen_out_of_range (hk : taken c = true) (hr : ¬ s.mem.InRange t.toInt) :
    settle s (jumpWhen s m1 m2 taken) = .next (raise s (.addressFault t.toInt s.ip .jump)) :=
  settle_eq_next.mpr (.inr ⟨_, jumpWhen_eq_error.mpr (.inr ⟨c, hc, .inr ⟨t, ht, hk, hr, rfl⟩⟩), rfl⟩)

theorem jumpWhen_not_taken (hk : taken c = false) : settle s (jumpWhen s m1 m2 taken) = .next { s with ip := s.ip + 3 } :=
  settle_eq_next.mpr (.inl (jumpWhen_eq_ok.mpr ⟨c, t, hc, ht, .inr ⟨hk, rfl⟩⟩))

end Jump

theorem bne_zero_of_toInt_ne {c : Word} (h : c.toInt ≠ 0) : (c != 0) = true := by simpa [word_toInt_eq_zero] using h

theorem beq_zero_of_toInt_eq {c : Word} (h : c.toInt = 0) : (c == 0) = true := by simpa [word_toInt_eq_zero] using h

/-- Settles O31: format F2, taken when the condition is not zero. -/
theorem jtJumpsWhenNotZero : Obligations.JtJumpsWhenNotZero := by
  intro s m1 m2 c t hc ht
  refine ⟨fun hk h0 hlen => ?_, fun hk hr => ?_, fun hk => ?_⟩
  · exact jumpWhen_taken hc ht (bne_zero_of_toInt_ne hk) ⟨h0, hlen⟩
  · exact jumpWhen_out_of_range hc ht (bne_zero_of_toInt_ne hk) hr
  · exact jumpWhen_not_taken hc ht (by simpa [bne] using beq_zero_of_toInt_eq hk)

/-- Settles O32: format F2, taken when the condition is zero. -/
theorem jfJumpsWhenZero : Obligations.JfJumpsWhenZero := by
  intro s m1 m2 c t hc ht
  refine ⟨fun hk h0 hlen => ?_, fun hk hr => ?_, fun hk => ?_⟩
  · exact jumpWhen_taken hc ht (beq_zero_of_toInt_eq hk) ⟨h0, hlen⟩
  · exact jumpWhen_out_of_range hc ht (beq_zero_of_toInt_eq hk) hr
  · exact jumpWhen_not_taken hc ht (by simpa [bne] using bne_zero_of_toInt_ne hk)

/-! ### The order of the operand checks (60_exceptions.md R129) -/

theorem storeBinary_raisesFirstOperandFault (m1 m2 : Mode) (result : State → Word → Word → Except FaultRecord Word) :
    RaisesFirstOperandFault3 (fun s => settle s (storeBinary s m1 m2 (result s))) m1 m2 := by
  intro s f
  have hraise (h : storeBinary s m1 m2 (result s) = .error f) : settle s (storeBinary s m1 m2 (result s)) = .next (raise s f) :=
    settle_eq_next.mpr (.inr ⟨f, h, rfl⟩)
  refine ⟨fun h1 => hraise ?_, fun a h1 h2 => hraise ?_, fun a b h1 h2 h3 => hraise ?_⟩ <;> rw [storeBinary_eq_error]
  · exact .inl h1
  · exact .inr ⟨a, h1, .inl h2⟩
  · exact .inr ⟨a, h1, .inr ⟨b, h2, .inl h3⟩⟩

theorem jumpWhen_raisesFirstOperandFault (m1 m2 : Mode) {taken : Word → Bool} {P : Word → Prop} (hP : ∀ c, P c → taken c = true) :
    RaisesFirstOperandFault2 (fun s => settle s (jumpWhen s m1 m2 taken)) m1 m2 P := by
  intro s f
  have hraise (h : jumpWhen s m1 m2 taken = .error f) : settle s (jumpWhen s m1 m2 taken) = .next (raise s f) :=
    settle_eq_next.mpr (.inr ⟨f, h, rfl⟩)
  refine ⟨fun h1 => hraise ?_, fun c h1 h2 => hraise ?_, fun c t hc ht hk hr => ?_⟩
  · exact jumpWhen_eq_error.mpr (.inl h1)
  · exact jumpWhen_eq_error.mpr (.inr ⟨c, h1, .inl h2⟩)
  · exact jumpWhen_out_of_range hc ht (hP c hk) hr

/-- Settles O34: the two shapes find their first failing check in order, and `out` and `in` have one. -/
theorem theFirstFailingOperandCheckIsRaised : Obligations.TheFirstFailingOperandCheckIsRaised := by
  refine ⟨fun m1 m2 m3 => ?_, fun m1 m2 => ?_, fun _ _ _ => exec_output_of_error, fun m _ _ => exec_input_of_error m⟩
  · have h3 := storeBinary_raisesFirstOperandFault m1 m2
    exact ⟨h3 (narrow · .add), h3 (narrow · .mul), h3 fun _ _ _ => .ok _, h3 fun _ _ _ => .ok _⟩
  · exact ⟨jumpWhen_raisesFirstOperandFault m1 m2 fun _ => bne_zero_of_toInt_ne,
      jumpWhen_raisesFirstOperandFault m1 m2 fun _ => beq_zero_of_toInt_eq⟩

/-! ### The invariant (10_state.md, 40_execution_engine.md R75, 45_halt.md R101, 60_exceptions.md R128) -/

/-- An instruction that starts at a cell ends at most three cells past the last (40_execution_engine.md R75). -/
theorem Commits.ip_le {i : Instr} {s s' : State} (h : Commits i s s') (hip : s.ip < s.mem.len) : s'.ip ≤ s.mem.len + 3 := by
  have hwidth (n : Nat) (hn : n ≤ 4) : s.ip + n ≤ s.mem.len + 3 := by omega
  cases i with
  | add | mul => obtain ⟨_, _, _, _, _, _, _, _, rfl⟩ := h; exact hwidth 4 (by omega)
  | lt | eq => obtain ⟨_, _, _, _, _, _, rfl⟩ := h; exact hwidth 4 (by omega)
  | input =>
    obtain ⟨_, _, ⟨_, _, rfl⟩ | ⟨_, _, _, rfl⟩⟩ := h
    · exact hwidth 0 (by omega)
    · exact hwidth 2 (by omega)
  | output => obtain ⟨_, _, rfl⟩ := h; exact hwidth 2 (by omega)
  | jt | jf =>
    obtain ⟨_, t, _, _, ⟨_, ⟨_, hlt⟩, rfl⟩ | ⟨_, rfl⟩⟩ := h
    · show t.toInt.toNat ≤ s.mem.len + 3
      omega
    · exact hwidth 3 (by omega)
  | halt => obtain rfl := h; exact hwidth 0 (by omega)

theorem Commits.config {i : Instr} {s s' : State} (h : Commits i s s') : s'.config = s.config := by
  rcases h.cases_halt with ⟨_, rfl⟩ | ⟨_, _, hconfig⟩
  · rfl
  · exact hconfig

theorem Commits.len {i : Instr} {s s' : State} (h : Commits i s s') : s'.mem.len = s.mem.len := by
  rcases h.mem with ⟨_, hmem⟩ | ⟨_, _, _, _, hmem | ⟨_, hmem⟩⟩ <;> rw [hmem]
  exact s.mem.set_len _ _

theorem Commits.wf {i : Instr} {s s' : State} (h : Commits i s s') (hwf : s.mem.wf = true) : s'.mem.wf = true := by
  rcases h.mem with ⟨_, hmem⟩ | ⟨_, t, _, ht, hmem | ⟨v, hmem⟩⟩ <;> rw [hmem]
  · exact hwf
  · exact hwf
  · obtain ⟨hnonneg, hlt⟩ := inRange_of_writeTarget ht
    exact Memory.wf_set hwf (by omega) v

section Inv

variable {s : State} (h : s.Inv)
include h

theorem State.Inv.fault_eq_none (hs : s.status = .running) : s.fault = none := by
  have hrecord : ¬ s.fault.isSome = true := fun hsome => by cases (h.record.mp hsome).symm.trans hs
  simpa using hrecord

theorem State.Inv.halt (hs : s.status = .running) (hfetch : fetchInstr s = .ok .halt) : State.Inv { s with status := .halted } := by
  obtain ⟨hip, hd⟩ := fetchInstr_eq_ok.mp hfetch
  have hfault := h.fault_eq_none hs
  exact { h with
    record := by simp [hfault]
    halted := fun _ => ⟨hip, decode_eq_halt_iff.mp hd⟩ }

theorem State.Inv.raise {f : FaultRecord} (hf : f.ip = s.ip) : (raise s f).Inv :=
  { h with
    record := by simp
    recordIp := fun g hg => Option.some.inj hg ▸ hf
    halted := fun hhalted => by cases hhalted }

theorem State.Inv.commits {i : Instr} {s' : State} (hs : s.status = .running) (hfetch : fetchInstr s = .ok i)
    (hc : Commits i s s') : s'.Inv := by
  obtain ⟨hip, _⟩ := fetchInstr_eq_ok.mp hfetch
  rcases hc.cases_halt with ⟨rfl, rfl⟩ | ⟨hstatus, hfault, _⟩
  · exact h.halt hs hfetch
  · rw [hs] at hstatus
    rw [h.fault_eq_none hs] at hfault
    exact {
      memory := hc.wf h.memory
      length := hc.len ▸ h.length
      pointer := hc.len ▸ hc.ip_le hip
      record := by simp [hstatus, hfault]
      recordIp := fun f hf => by cases hfault.symm.trans hf
      halted := fun hhalted => by cases hstatus.symm.trans hhalted }

theorem State.Inv.step {s' : State} (hstep : step s = .next s') : s'.Inv := by
  obtain ⟨hs, ⟨i, hfetch, _, hc⟩ | ⟨f, hf, rfl⟩⟩ := step_cases hstep
  · exact h.commits hs hfetch hc
  · exact h.raise hf

theorem State.Inv.pushInput (w : Word) : (s.pushInput w).Inv := { h with }

theorem State.Inv.setOutq (outq : List Word) : State.Inv { s with outq := outq } := { h with }

end Inv

/-- Settles O36: a step commits what its fetched instruction says or raises a record that names `ip`. -/
theorem everyStepKeepsTheInvariant : Obligations.EveryStepKeepsTheInvariant := fun _ _ h hstep => h.step hstep

theorem State.inv_ofImage (config : Config) {P : List Word} (hP : P.length ≤ maxLen) (I : List Word) :
    (State.ofImage config P I).Inv where
  memory := Memory.wf_ofImage P
  length := hP
  pointer := Nat.zero_le _
  record := by simp [State.ofImage]
  recordIp := fun _ hf => by cases hf
  halted := fun h => by cases h

/-- Settles O35: the reset state is that of the empty image, whose first fetch is out of range. -/
theorem resetMeetsTheInvariant : Obligations.ResetMeetsTheInvariant :=
  ⟨rfl, State.inv_ofImage .thisHardware (P := []) (Nat.zero_le _) [], fetchOutOfRangeRaisesAddressFault State.reset rfl (Nat.zero_le 0)⟩

/-! ### Words the host gives (46_host_operations.md R103, R104) -/

theorem hostWord_eq_ok {v : Int} {w : Word} : hostWord v = .ok w ↔ FitsWord v ∧ w = wordOf v := by
  by_cases h : FitsWord v
  · rw [hostWord, if_pos h]
    exact ⟨fun he => (by cases he; exact ⟨h, rfl⟩), fun he => he.2 ▸ rfl⟩
  · rw [hostWord, if_neg h]
    exact ⟨fun he => (by cases he), fun he => absurd he.1 h⟩

theorem hostWords_eq_ok {vs : List Int} : ∀ {ws : List Word}, hostWords vs = .ok ws ↔ (∀ v ∈ vs, FitsWord v) ∧ ws = vs.map wordOf := by
  induction vs with
  | nil => simp [hostWords, eq_comm]
  | cons v vs ih =>
    intro ws
    simp only [hostWords, bind_ok_iff, hostWord_eq_ok, ih, List.forall_mem_cons, List.map_cons]
    constructor
    · rintro ⟨_, ⟨hv, rfl⟩, _, ⟨hvs, rfl⟩, he⟩
      cases he
      exact ⟨⟨hv, hvs⟩, rfl⟩
    · rintro ⟨⟨hv, hvs⟩, rfl⟩
      exact ⟨_, ⟨hv, rfl⟩, _, ⟨hvs, rfl⟩, rfl⟩

theorem construct_eq_ok {config : Config} {P I : List Int} {s : State} :
    construct config P I = .ok s ↔ P.length ≤ maxLen ∧ (∀ v ∈ P, FitsWord v) ∧ (∀ v ∈ I, FitsWord v) ∧
      s = .ofImage config (P.map wordOf) (I.map wordOf) := by
  by_cases hlen : P.length ≤ maxLen
  · simp only [construct, if_pos hlen, bind_ok_iff, hostWords_eq_ok]
    constructor
    · rintro ⟨_, ⟨hP, rfl⟩, _, ⟨hI, rfl⟩, he⟩
      cases he
      exact ⟨hlen, hP, hI, rfl⟩
    · rintro ⟨_, hP, hI, rfl⟩
      exact ⟨_, ⟨hP, rfl⟩, _, ⟨hI, rfl⟩, rfl⟩
  · rw [construct, if_neg hlen]
    exact ⟨fun h => (by cases h), fun h => absurd h.1 hlen⟩

theorem map_toInt_map_wordOf {vs : List Int} (h : ∀ v ∈ vs, FitsWord v) : (vs.map wordOf).map BitVec.toInt = vs := by
  rw [List.map_map]
  exact (List.map_congr_left fun v hv => toInt_wordOf (h v hv)).trans (List.map_id vs)

/-- Settles O39: `construct` accepts exactly the arguments in range, with the image and the inputs as words. -/
theorem constructGivesTheResetState : Obligations.ConstructGivesTheResetState := by
  intro config P I
  constructor
  · intro hP hI hlen
    have hcell (a : Nat) (h : a < P.length) : ((Memory.ofImage (P.map wordOf)).get a).toInt = P[a] := by
      rw [Memory.get_ofImage _ (by simpa using h), List.getElem_map, toInt_wordOf (hP _ (List.getElem_mem h))]
    exact ⟨_, construct_eq_ok.mpr ⟨hlen, hP, hI, rfl⟩, List.length_map wordOf, hcell, rfl, rfl, rfl, map_toInt_map_wordOf hI, rfl, rfl⟩
  · intro hbad
    cases hc : construct config P I with
    | error e => exact ⟨e, rfl⟩
    | ok s =>
      obtain ⟨hlen, hP, hI, _⟩ := construct_eq_ok.mp hc
      rcases hbad with ⟨v, hv, hfits⟩ | ⟨v, hv, hfits⟩ | hlong
      · exact absurd (hP v hv) hfits
      · exact absurd (hI v hv) hfits
      · omega

/-- Settles O37: steps, supplies and output reads keep the invariant, so every host operation and every session does. -/
theorem everyReachableInstanceMeetsTheInvariant : Obligations.EveryReachableInstanceMeetsTheInvariant := by
  refine ⟨fun s c h => ?_, fun config P I s events x hs hx => ?_⟩
  · exact hostCall_keeps everyStepKeepsTheInvariant (fun _ w h => h.pushInput w) (fun _ outq h => h.setOutq outq) c h
  · obtain ⟨hlen, _, _, rfl⟩ := construct_eq_ok.mp hs
    exact hostSession_keeps everyStepKeepsTheInvariant (fun _ w h => h.pushInput w) (fun _ outq h => h.setOutq outq) events
      (State.inv_ofImage config (by simpa using hlen) _) hx

theorem step_keeps_config {s s' : State} (h : step s = .next s') : s'.config = s.config := by
  obtain ⟨_, ⟨_, _, _, hc⟩ | ⟨f, _, rfl⟩⟩ := step_cases h
  · exact hc.config
  · exact raise_config s f

theorem step_keeps_len {s s' : State} (h : step s = .next s') : s'.mem.len = s.mem.len := by
  obtain ⟨_, ⟨_, _, _, hc⟩ | ⟨f, _, rfl⟩⟩ := step_cases h
  · exact hc.len
  · rw [raise_mem]

/-- Settles O38: the parameters are a property that every step and every host operation keeps. -/
theorem lenAndParametersNeverChange : Obligations.LenAndParametersNeverChange := by
  refine ⟨fun s s' h => ⟨step_keeps_len h, step_keeps_config h⟩, fun x x' events hx => ?_⟩
  refine hostSession_keeps (P := fun s => s.mem.len = x.machine.mem.len ∧ s.config = x.machine.config)
    (fun s s' h hstep => ?_) (fun _ _ h => h) (fun _ _ h => h) events ⟨rfl, rfl⟩ hx
  exact ⟨(step_keeps_len hstep).trans h.1, (step_keeps_config hstep).trans h.2⟩

/-! ### Host operations other than a run (46_host_operations.md R104 to R111) -/

theorem hostCall_supply_of_fits {v : Int} (h : FitsWord v) (s : State) :
    hostCall (.supply v) s = (.nothing, s.pushInput (wordOf v)) := by
  have hsupply : supply s v = .ok (s.pushInput (wordOf v)) := bind_ok_iff.mpr ⟨_, hostWord_eq_ok.mpr ⟨h, rfl⟩, rfl⟩
  simp only [hostCall, hsupply]

theorem hostCall_supply_of_not_fits {v : Int} (h : ¬ FitsWord v) (s : State) : hostCall (.supply v) s = (.error .valueRange, s) := by
  have hsupply : supply s v = .error .valueRange := bind_error_iff.mpr (.inl (if_neg h))
  simp only [hostCall, hsupply]

/-- Settles O41: the value is the one word of that value, or it is refused. -/
theorem supplyAppendsToTheInputQueue : Obligations.SupplyAppendsToTheInputQueue := fun s _ =>
  ⟨fun h => ⟨_, toInt_wordOf h, hostCall_supply_of_fits h s⟩, fun h => ⟨_, hostCall_supply_of_not_fits h s⟩⟩

/-- A session of supplies queues the values behind the inputs. -/
theorem hostSession_supplies {I : List Int} (h : ∀ v ∈ I, FitsWord v) : ∀ s : State,
    hostSession (I.map (fun v => .call (.supply v))) (.idle s) = some (.idle { s with inq := s.inq ++ I.map wordOf }) := by
  induction I with
  | nil => intro s; simp [hostSession]
  | cons v I ih =>
    intro s
    obtain ⟨hv, hI⟩ := List.forall_mem_cons.mp h
    have hnext : (Session.idle s).next (.call (.supply v)) = some (.nothing, .idle (s.pushInput (wordOf v))) := by
      show some (Session.after (hostCall (.supply v) s)) = _
      rw [hostCall_supply_of_fits hv]
      rfl
    refine hostSession_cons.mpr ⟨_, hnext, (ih hI _).trans ?_⟩
    simp [State.pushInput]

/-- Settles O40: both states are built from one image, and the session of supplies queues the same words. -/
theorem initialInputsEqualSupplies : Obligations.InitialInputsEqualSupplies := by
  intro config P I s s0 hs hs0
  obtain ⟨_, _, hI, rfl⟩ := construct_eq_ok.mp hs
  obtain ⟨_, _, _, rfl⟩ := construct_eq_ok.mp hs0
  exact hostSession_supplies hI _

/-- Settles O44: an accessor moves one end of the collection to what it returned, and leaves the rest to the calls after it. -/
theorem outputsAreNeitherLostNorReturnedTwice : Obligations.OutputsAreNeitherLostNorReturnedTwice := by
  intro calls
  induction calls with
  | nil => intro s; simp [drainOutputs]
  | cons call calls ih =>
    intro s
    cases call with
    | true =>
      cases h : nextOutput s with
      | error e => simpa only [drainOutputs, h] using ih s
      | ok r =>
        obtain ⟨w, s1⟩ := r
        obtain ⟨hq, hs1⟩ := nextOutput_eq_ok.mp h
        obtain ⟨hkeeps, hframe⟩ := ih s1
        simp only [drainOutputs, h]
        refine ⟨?_, ?_⟩
        · rw [hq, hkeeps]; rfl
        · rw [hframe, hs1]
    | false =>
      cases h : latestOutput s with
      | error e => simpa only [drainOutputs, h] using ih s
      | ok r =>
        obtain ⟨w, s1⟩ := r
        obtain ⟨hq, hs1⟩ := latestOutput_eq_ok.mp h
        obtain ⟨hkeeps, hframe⟩ := ih s1
        simp only [drainOutputs, h]
        refine ⟨?_, ?_⟩
        · rw [hq, hkeeps]; simp
        · rw [hframe, hs1]

/-- Settles O45: the two branches of the range check. -/
theorem inspectReadsWithoutTouching : Obligations.InspectReadsWithoutTouching := by
  intro s a
  refine ⟨fun hr => ?_, fun hr => ?_⟩
  · have hinspect : inspect s a = .ok (s.mem.get a.toNat) := if_pos hr
    simp only [hostCall, hinspect]
  · have hinspect : inspect s a = .error .inspectRange := if_neg hr
    simp only [hostCall, hinspect]

theorem hostCall_nextOutput_of_ok {s s' : State} {v : Word} (h : nextOutput s = .ok (v, s')) :
    hostCall .nextOutput s = (.value v, s') := by
  simp only [hostCall, h]

theorem hostCall_latestOutput_of_ok {s s' : State} {v : Word} (h : latestOutput s = .ok (v, s')) :
    hostCall .latestOutput s = (.value v, s') := by
  simp only [hostCall, h]

theorem hostCall_inspect_snd (a : Int) (s : State) : (hostCall (.inspect a) s).2 = s := by
  simp only [hostCall]
  split <;> rfl

/-- The frame of an output accessor: the collection shrinks to a part of itself. -/
theorem frame_of_setOutq {s s' : State} (hs' : s' = { s with outq := s'.outq }) (hq : s'.outq <:+: s.outq) :
    s'.mem = s.mem ∧ s'.ip = s.ip ∧ s'.status = s.status ∧ s'.fault = s.fault ∧ s.inq <+: s'.inq ∧ s'.outq <:+: s.outq := by
  rw [hs']
  exact ⟨rfl, rfl, rfl, rfl, List.prefix_rfl, hq⟩

/-- Settles O46: only `supply` touches the input queue and only the accessors touch the output collection. -/
theorem hostOperationsOnlyTouchTheQueues : Obligations.HostOperationsOnlyTouchTheQueues := by
  intro c s hnorun
  have hsame := frame_of_setOutq (s := s) rfl List.infix_rfl
  cases c with
  | run samples => exact absurd rfl (hnorun samples).1
  | resume samples => exact absurd rfl (hnorun samples).2
  | supply v =>
    by_cases h : FitsWord v
    · rw [hostCall_supply_of_fits h]
      exact ⟨rfl, rfl, rfl, rfl, List.prefix_append _ _, List.infix_rfl⟩
    · rw [hostCall_supply_of_not_fits h]
      exact hsame
  | inspect a =>
    rw [hostCall_inspect_snd]
    exact hsame
  | requestCancel => exact hsame
  | nextOutput =>
    cases h : nextOutput s with
    | error e =>
      rw [hostCall_nextOutput_of_error h]
      exact hsame
    | ok r =>
      obtain ⟨v, s'⟩ := r
      obtain ⟨hq, hs'⟩ := nextOutput_eq_ok.mp h
      rw [hostCall_nextOutput_of_ok h]
      exact frame_of_setOutq hs' (hq ▸ (List.suffix_cons v s'.outq).isInfix)
  | latestOutput =>
    cases h : latestOutput s with
    | error e =>
      rw [hostCall_latestOutput_of_error h]
      exact hsame
    | ok r =>
      obtain ⟨v, s'⟩ := r
      obtain ⟨hq, hs'⟩ := latestOutput_eq_ok.mp h
      rw [hostCall_latestOutput_of_ok h]
      exact frame_of_setOutq hs' (hq ▸ (List.prefix_append s'.outq [v]).isInfix)

/-! ### Placing an instruction (log entry 10) -/

theorem decodeTableWord_eq_some {nbits w : Nat} {i : Instr} :
    decodeTableWord nbits w = some i ↔ decode (tableCell nbits w 0) = .ok i := by
  unfold decodeTableWord
  cases decode (tableCell nbits w 0) <;> simp

theorem Memory.get_place_self (m : Memory) (a : Nat) (c0 c1 c2 c3 : Word) : (m.place a c0 c1 c2 c3).get a = c0 := by
  simp [Memory.get_place]

/-- Settles O54: the first placed cell stands at `ip`, in range, and holds the bits the decoder read. -/
theorem aPlacedInstructionIsTheNextOneRun : Obligations.APlacedInstructionIsTheNextOneRun := by
  intro s nbits w i hi
  have hfetch : fetchInstr (s.withFetchWord nbits w) = .ok i := by
    refine fetchInstr_eq_ok.mpr ⟨?_, ?_⟩
    · show s.ip < max s.mem.len (s.ip + 4)
      omega
    · show decode ((s.mem.place s.ip _ _ _ _).get s.ip) = .ok i
      rw [Memory.get_place_self]
      exact decodeTableWord_eq_some.mp hi
  exact ⟨hfetch, step_of_fetch rfl hfetch, fun hwf => Memory.wf_place hwf s.ip _ _ _ _⟩

/-! ### Replies (40_execution_engine.md R73, R80; 42_io.md R89, R90) -/

theorem stepReply_eq_outputProduced {s s' : State} :
    stepReply s s' = .outputProduced ↔ ∃ m, fetchInstr s = .ok (.output m) ∧ s'.status = .running := by
  unfold stepReply
  split
  case h_1 m hm => simp [hm]
  case h_2 m hm => split <;> simp [hm]
  case h_3 hno _ => exact ⟨fun h => (by cases h), fun ⟨m, hm, _⟩ => (hno m hm).elim⟩

theorem stepReply_eq_needsInput {s s' : State} :
    stepReply s s' = .needsInput ↔ ∃ m, fetchInstr s = .ok (.input m) ∧ s'.status = .running ∧ s'.ip = s.ip := by
  unfold stepReply
  split
  case h_1 m hm => split <;> simp [hm]
  case h_2 m hm => simp [hm]
  case h_3 _ hno => exact ⟨fun h => (by cases h), fun ⟨m, hm, _⟩ => (hno m hm).elim⟩

/-- A step that left the machine running committed the instruction it fetched. -/
theorem commits_of_step {i : Instr} {s s' : State} (hstep : step s = .next s') (hfetch : fetchInstr s = .ok i)
    (hs' : s'.status = .running) : Commits i s s' := by
  obtain ⟨_, ⟨j, hj, _, hc⟩ | ⟨f, _, rfl⟩⟩ := step_cases hstep
  · obtain rfl : j = i := Except.ok.inj (hj.symm.trans hfetch)
    exact hc
  · cases hs'

theorem output_of_outputProduced {s s' : State} (hstep : step s = .next s') (h : stepReply s s' = .outputProduced) :
    s'.status = .running ∧ ∃ m a, fetchInstr s = .ok (.output m) ∧ readOperand s 1 m = .ok a ∧ s'.outq = s.outq ++ [a] := by
  obtain ⟨m, hfetch, hs'⟩ := stepReply_eq_outputProduced.mp h
  obtain ⟨a, ha, rfl⟩ := commits_of_step hstep hfetch hs'
  exact ⟨hs', m, a, hfetch, ha, rfl⟩

/-- A step that replies NeedsInput is an `in` that found the queue empty under SUSPEND = true, and changed nothing. -/
theorem wait_of_needsInput {s s' : State} (hstep : step s = .next s') (h : stepReply s s' = .needsInput) :
    s' = s ∧ s.inq = [] ∧ ∃ m t, fetchInstr s = .ok (.input m) ∧ writeTarget s 1 = .ok t := by
  obtain ⟨m, hfetch, hs', hip⟩ := stepReply_eq_needsInput.mp h
  obtain ⟨t, ht, ⟨hq, _, rfl⟩ | ⟨v, rest, _, rfl⟩⟩ := commits_of_step hstep hfetch hs'
  · exact ⟨rfl, hq, m, t, hfetch, ht⟩
  · have hmoved : s.ip + 2 = s.ip := hip
    omega

theorem stepReply_of_empty {s s' : State} {m : Mode} {t : Int} (hsuspend : s.config.suspend = true) (hstep : step s = .next s')
    (hfetch : fetchInstr s = .ok (.input m)) (ht : writeTarget s 1 = .ok t) (hq : s.inq = []) : stepReply s s' = .needsInput := by
  obtain ⟨hs, _⟩ := step_cases hstep
  rw [step_of_fetch hs hfetch, exec_input_of_empty m ht hq, if_pos hsuspend] at hstep
  cases hstep
  exact stepReply_of_wait hs hfetch

/-! ### Turns of the run controller (40_execution_engine.md R79 to R82) -/

theorem suspendResult_of_not_suspend {config : Config} (h : config.suspend = false) (reply : StepReply) :
    suspendResult config reply = none := by
  simp [suspendResult, h]

theorem suspendResult_outputProduced {config : Config} (h : config.suspend = true) :
    suspendResult config .outputProduced = some .outputProduced := by
  simp [suspendResult, h]

theorem suspendResult_needsInput {config : Config} (h : config.suspend = true) :
    suspendResult config .needsInput = some .needsInput := by
  simp [suspendResult, h]

/-- Only SUSPEND = true hands control back, and the result names the reply. -/
theorem suspendResult_eq_some {config : Config} {reply : StepReply} {r : RunResult} (h : suspendResult config reply = some r) :
    config.suspend = true ∧
      ((reply = .outputProduced ∧ r = .outputProduced) ∨ (reply = .needsInput ∧ r = .needsInput)) := by
  cases hsuspend : config.suspend with
  | false => rw [suspendResult_of_not_suspend hsuspend] at h; cases h
  | true =>
    refine ⟨rfl, ?_⟩
    cases reply with
    | done => rw [suspendResult_done] at h; cases h
    | outputProduced => rw [suspendResult_outputProduced hsuspend] at h; cases h; exact .inl ⟨rfl, rfl⟩
    | needsInput => rw [suspendResult_needsInput hsuspend] at h; cases h; exact .inr ⟨rfl, rfl⟩

theorem runLoop_step_of_not_suspend {s s' : State} (hs : s.status = .running) (hsuspend : s.config.suspend = false)
    (hstep : step s = .next s') (samples : List Bool) : runLoop (false :: samples) s = runLoop samples s' := by
  rw [runLoop_turn hs hstep, suspendResult_of_not_suspend hsuspend]

/-- Everything one turn can do: a terminal machine or a cancellation returns, or the step is taken and the run hands back or goes on. -/
theorem runLoop_cons_cases (cancel : Bool) (s : State) :
    (∃ r, terminalResult s = some r ∧ ∀ samples, runLoop (cancel :: samples) s = (some r, s)) ∨
      (s.status = .running ∧ cancel = true ∧ ∀ samples, runLoop (cancel :: samples) s = (some .cancelled, s)) ∨
      ∃ s', step s = .next s' ∧ cancel = false ∧
        ((∃ r, suspendResult s.config (stepReply s s') = some r ∧ ∀ samples, runLoop (cancel :: samples) s = (some r, s')) ∨
          ∀ samples, runLoop (cancel :: samples) s = runLoop samples s') := by
  cases ht : terminalResult s with
  | some r => exact .inl ⟨r, rfl, fun samples => runLoop_of_terminal ht _⟩
  | none =>
    have hs := terminalResult_eq_none.mp ht
    cases cancel with
    | true => exact .inr (.inl ⟨hs, rfl, runLoop_cancel hs⟩)
    | false =>
      obtain ⟨s', hstep⟩ := step_next hs
      refine .inr (.inr ⟨s', hstep, rfl, ?_⟩)
      cases hr : suspendResult s.config (stepReply s s') with
      | some r => exact .inl ⟨r, rfl, fun samples => by rw [runLoop_turn hs hstep, hr]⟩
      | none => exact .inr fun samples => by rw [runLoop_turn hs hstep, hr]

/-- A run that has not ended is running, and more samples go on from where it stands (40_execution_engine.md R82). -/
theorem runLoop_append {first : List Bool} : ∀ {s s' : State}, runLoop first s = (none, s') →
    s'.status = .running ∧ ∀ more, runLoop (first ++ more) s = runLoop more s' := by
  induction first with
  | nil =>
    intro s s' h
    obtain ⟨ht, rfl⟩ := Prod.mk.inj h
    exact ⟨terminalResult_eq_none.mp ht, fun _ => rfl⟩
  | cons cancel first ih =>
    intro s s' h
    rcases runLoop_cons_cases cancel s with ⟨r, _, hrun⟩ | ⟨_, _, hrun⟩ | ⟨s1, _, _, ⟨r, _, hrun⟩ | hrun⟩ <;> rw [hrun] at h
    · cases h
    · cases h
    · cases h
    · obtain ⟨hs', happend⟩ := ih h
      exact ⟨hs', fun more => (hrun (first ++ more)).trans (happend more)⟩

/-- What a result says of the state the run leaves (46_host_operations.md R107). -/
def RunResult.Matches (config : Config) (samples : List Bool) (s' : State) : RunResult → Prop
  | .halted => s'.status = .halted
  | .failed f => s'.status = .faulted ∧ s'.fault = f
  | .cancelled => s'.status = .running ∧ true ∈ samples
  | .outputProduced => config.suspend = true ∧ s'.status = .running ∧ s'.outq ≠ []
  | .needsInput => config.suspend = true ∧ s'.status = .running ∧ s'.inq = [] ∧
      ∃ m t, fetchInstr s' = .ok (.input m) ∧ writeTarget s' 1 = .ok t

theorem RunResult.Matches.of_terminal {s : State} {r : RunResult} (h : terminalResult s = some r) (config : Config)
    (samples : List Bool) : r.Matches config samples s := by
  unfold terminalResult at h
  split at h <;> cases h
  · assumption
  · exact ⟨‹_›, rfl⟩

theorem RunResult.Matches.of_suspend {s s' : State} {r : RunResult} (hstep : step s = .next s')
    (h : suspendResult s.config (stepReply s s') = some r) (samples : List Bool) : r.Matches s.config samples s' := by
  obtain ⟨hsuspend, ⟨hreply, rfl⟩ | ⟨hreply, rfl⟩⟩ := suspendResult_eq_some h
  · obtain ⟨hs', _, a, _, _, hq⟩ := output_of_outputProduced hstep hreply
    exact ⟨hsuspend, hs', by simp [hq]⟩
  · obtain ⟨rfl, hwait⟩ := wait_of_needsInput hstep hreply
    exact ⟨hsuspend, (step_cases hstep).1, hwait⟩

theorem RunResult.Matches.cons {config : Config} {samples : List Bool} {s' : State} {r : RunResult}
    (h : r.Matches config samples s') (cancel : Bool) : r.Matches config (cancel :: samples) s' := by
  cases r with
  | cancelled => exact ⟨h.1, List.mem_cons_of_mem cancel h.2⟩
  | halted | failed | outputProduced | needsInput => exact h

theorem runLoop_matches {samples : List Bool} : ∀ {s s' : State} {r : RunResult},
    runLoop samples s = (some r, s') → r.Matches s.config samples s' := by
  induction samples with
  | nil =>
    intro s s' r h
    obtain ⟨ht, rfl⟩ := Prod.mk.inj h
    exact .of_terminal ht _ _
  | cons cancel samples ih =>
    intro s s' r h
    rcases runLoop_cons_cases cancel s with ⟨r, ht, hrun⟩ | ⟨hs, rfl, hrun⟩ | ⟨s1, hstep, _, ⟨r, hr, hrun⟩ | hrun⟩ <;>
      rw [hrun] at h
    · cases h
      exact .of_terminal ht _ _
    · cases h
      exact ⟨hs, List.mem_cons_self⟩
    · cases h
      exact .of_suspend hstep hr _
    · exact step_keeps_config hstep ▸ (ih h).cons cancel

/-- Settles O47: both operations are the run controller, which returns at once on a terminal machine. -/
theorem terminalMachinesReturnAtOnce : Obligations.TerminalMachinesReturnAtOnce := by
  intro s samples
  refine ⟨fun h => ?_, fun h => ?_⟩
  · simp only [hostCall, runLoop_of_terminal (terminalResult_of_halted h), and_self]
  · simp only [hostCall, runLoop_of_terminal (terminalResult_of_faulted h), and_self]

/-- Settles O48: by induction on the samples, the result comes from the turn that ended the run. -/
theorem runResultsMatchTheState : Obligations.RunResultsMatchTheState := by
  intro samples s s' r h
  have hmatches := runLoop_matches h
  cases r <;> exact hmatches

/-- Settles O49: more samples go on from where the run stands, and the first of them may cancel it. -/
theorem aCancelledRunIsAResumablePrefix : Obligations.ACancelledRunIsAResumablePrefix := by
  intro n s s' more h
  obtain ⟨hs', happend⟩ := runLoop_append h
  exact ⟨hs', (happend _).trans (runLoop_cancel hs' more), happend more⟩

/-- Settles O50: the results of a run that neither suspends nor is cancelled, and the turn with SUSPEND = false. -/
theorem aMinimalRunEndsOnlyAtHaltOrFault : Obligations.AMinimalRunEndsOnlyAtHaltOrFault := by
  refine ⟨fun n s s' result hsuspend h => ?_, fun s s' samples hs hsuspend hstep => runLoop_step_of_not_suspend hs hsuspend hstep samples⟩
  cases result with
  | none => exact .inl ⟨rfl, (runLoop_append h).1⟩
  | some r =>
    have hmatches := runLoop_matches h
    cases r with
    | halted => exact .inr (.inl ⟨rfl, hmatches⟩)
    | failed f =>
      obtain ⟨hs', rfl⟩ := hmatches
      exact .inr (.inr ⟨rfl, hs'⟩)
    | cancelled =>
      obtain ⟨_, hcancel⟩ := hmatches
      cases List.eq_of_mem_replicate hcancel
    | outputProduced | needsInput =>
      obtain ⟨hsuspend', _⟩ := hmatches
      cases hsuspend.symm.trans hsuspend'

/-- Settles O56: the two replies that hand back are an `out` that committed and an `in` that waits. -/
theorem aSuspendingRunHandsBackAtOutputsAndWaits : Obligations.ASuspendingRunHandsBackAtOutputsAndWaits := by
  intro s s' samples hs hsuspend hstep
  refine ⟨⟨fun h => ?_, fun ⟨m, a, hfetch, ha⟩ => stepReply_output hs hfetch ha hstep⟩, ⟨fun h => ?_, fun ⟨hq, m, t, hfetch, ht⟩ =>
    stepReply_of_empty hsuspend hstep hfetch ht hq⟩, fun h => runLoop_of_done hs hstep h samples, fun h => ?_, fun h => ?_⟩
  · obtain ⟨_, m, a, hfetch, ha, _⟩ := output_of_outputProduced hstep h
    exact ⟨m, a, hfetch, ha⟩
  · obtain ⟨_, hwait⟩ := wait_of_needsInput hstep h
    exact hwait
  · rw [runLoop_turn hs hstep, h, suspendResult_outputProduced hsuspend]
  · obtain ⟨rfl, _⟩ := wait_of_needsInput hstep h
    rw [runLoop_turn hs hstep, h, suspendResult_needsInput hsuspend]
    exact ⟨rfl, rfl⟩

/-! ### One thread of control (46_host_operations.md R114) -/

theorem hostCall_ended_none {c : HostCall} {s : State} (h : (hostCall c s).1 = .ended none) :
    ∃ samples, runLoop samples s = (none, (hostCall c s).2) := by
  cases c with
  | run samples | resume samples => exact ⟨samples, Prod.ext (HostReply.ended.inj h) rfl⟩
  | supply v => simp only [hostCall] at h; split at h <;> cases h
  | nextOutput => simp only [hostCall] at h; split at h <;> cases h
  | latestOutput => simp only [hostCall] at h; split at h <;> cases h
  | inspect a => simp only [hostCall] at h; split at h <;> cases h
  | requestCancel => cases h

theorem Session.next_eq_after {x : Session} {e : SessionEvent} {r : HostReply × Session} (h : x.next e = some r) :
    ∃ c, r = Session.after (hostCall c x.machine) := by
  rcases Session.next_cases h with ⟨_, c, _, hr⟩ | ⟨_, samples, _, hr⟩
  · exact ⟨c, hr⟩
  · exact ⟨.resume samples, hr⟩

theorem Session.next_goOn {x : Session} (h : x.inRun = true) (samples : List Bool) :
    x.next (.goOn samples) = some (Session.after (hostCall (.resume samples) x.machine)) := by
  simp only [Session.next, h]

theorem Session.next_requestCancel {x : Session} (h : x.inRun = true) :
    x.next (.call .requestCancel) = some (Session.after (hostCall (.resume [true]) x.machine)) := by
  simp only [Session.next, h]

theorem Session.idle_next_call (s : State) (c : HostCall) :
    (Session.idle s).next (.call c) = some (Session.after (hostCall c s)) := rfl

/-- Settles O55: the transitions of a session, and a run whose samples come in parts. -/
theorem theHostWaitsForARunToReturn : Obligations.TheHostWaitsForARunToReturn := by
  refine ⟨fun s c => ⟨_, Session.idle_next_call s c, rfl⟩, fun x c hrun hc => ?_, fun x hrun hs => ?_, fun s samples => rfl,
    fun x x' e reply h => ?_, fun s x first more h => ?_⟩
  · cases hnext : x.next (.call c) with
    | none => rfl
    | some r =>
      rcases Session.next_cases hnext with ⟨hidle, _⟩ | ⟨_, samples, he | ⟨he, _⟩, _⟩
      · cases hidle.symm.trans hrun
      · cases he
      · exact absurd (SessionEvent.call.inj he) hc
  · rw [Session.next_requestCancel hrun]
    simp only [hostCall, runLoop_cancel hs]
    rfl
  · obtain ⟨c, hr⟩ := Session.next_eq_after h
    obtain ⟨rfl, rfl⟩ := Prod.mk.inj hr
    refine ⟨Session.after_inRun _, fun hrun => ?_⟩
    obtain ⟨samples, hloop⟩ := hostCall_ended_none ((Session.after_inRun _).mp hrun)
    exact (runLoop_append hloop).1
  · rw [Session.idle_next_call] at h ⊢
    obtain ⟨hreply, rfl⟩ : (hostCall (.run first) s).1 = .ended none ∧ (Session.after (hostCall (.run first) s)).2 = x :=
      Prod.mk.inj (Option.some.inj h)
    have hloop : runLoop first s = (none, (runLoop first s).2) := Prod.ext (HostReply.ended.inj hreply) rfl
    rw [Session.next_goOn ((Session.after_inRun _).mpr hreply)]
    simp only [hostCall, (runLoop_append hloop).2 more, Session.after_machine]

/-! ### The same state with another SUSPEND and other queues (42_io.md R91, 40_execution_engine.md R80) -/

/-- `s` with SUSPEND and both queues replaced: all that two hosts of one program can make differ. -/
def State.hosted (s : State) (suspend : Bool) (inq outq : List Word) : State :=
  { s with config := { s.config with suspend := suspend }, inq := inq, outq := outq }

theorem State.hosted_outq (s : State) (outq : List Word) : s.hosted s.config.suspend s.inq outq = { s with outq := outq } := rfl

theorem State.hosted_upFront (s : State) (later : List Word) : s.hosted false (s.inq ++ later) s.outq = s.upFront later := rfl

section Hosted

variable {i : Instr} {s s' : State} (b : Bool) (q o : List Word)

/-- Nothing an instruction raises depends on SUSPEND or the queues, but for the starvation of `in`. -/
theorem Raises.hosted {f : FaultRecord} (h : Raises i s f) (hstarve : s.inq = [] → s.config.suspend = false → b = false ∧ q = []) :
    Raises i (s.hosted b q o) f := by
  cases i with
  | add | mul | lt | eq => exact storeBinary_eq_error.mpr (storeBinary_eq_error (s := s).mp h)
  | jt | jf => exact jumpWhen_eq_error.mpr (jumpWhen_eq_error (s := s).mp h)
  | output | halt => exact h
  | input m =>
    rcases h with hf | ⟨t, ht, hq, hsuspend, rfl⟩
    · exact .inl hf
    · obtain ⟨rfl, rfl⟩ := hstarve hq hsuspend
      exact .inr ⟨t, ht, rfl, rfl, rfl⟩

/-- Nothing an instruction other than `in` commits depends on SUSPEND or the queues, and what it appends to `outq` is the same. -/
theorem Commits.hosted (h : Commits i s s') (hin : ∀ m, i ≠ .input m) :
    ∃ produced : List Word, produced.length ≤ 1 ∧ s'.inq = s.inq ∧ s'.outq = s.outq ++ produced ∧
      ∀ b q o, Commits i (s.hosted b q o) (s'.hosted b q (o ++ produced)) := by
  have hkeeps (hinq : s'.inq = s.inq) (houtq : s'.outq = s.outq) (hc : ∀ b q o, Commits i (s.hosted b q o) (s'.hosted b q o)) :
      ∃ produced : List Word, produced.length ≤ 1 ∧ s'.inq = s.inq ∧ s'.outq = s.outq ++ produced ∧
        ∀ b q o, Commits i (s.hosted b q o) (s'.hosted b q (o ++ produced)) :=
    ⟨[], Nat.zero_le 1, hinq, by simpa using houtq, by simpa using hc⟩
  cases i with
  | add | mul =>
    obtain ⟨a, b, t, v, ha, hb, ht, hv, rfl⟩ := h
    exact hkeeps rfl rfl fun _ _ _ => ⟨a, b, t, v, ha, hb, ht, hv, rfl⟩
  | lt | eq =>
    obtain ⟨a, b, t, ha, hb, ht, rfl⟩ := h
    exact hkeeps rfl rfl fun _ _ _ => ⟨a, b, t, ha, hb, ht, rfl⟩
  | input m => exact absurd rfl (hin m)
  | output =>
    obtain ⟨a, ha, rfl⟩ := h
    exact ⟨[a], le_rfl, rfl, rfl, fun _ _ _ => ⟨a, ha, rfl⟩⟩
  | jt | jf =>
    obtain ⟨c, t, hc, ht, ⟨hk, hr, rfl⟩ | ⟨hk, rfl⟩⟩ := h
    · exact hkeeps rfl rfl fun _ _ _ => ⟨c, t, hc, ht, .inl ⟨hk, hr, rfl⟩⟩
    · exact hkeeps rfl rfl fun _ _ _ => ⟨c, t, hc, ht, .inr ⟨hk, rfl⟩⟩
  | halt =>
    obtain rfl := h
    exact hkeeps rfl rfl fun _ _ _ => rfl

end Hosted

theorem Commits.withOutq {i : Instr} {s s' : State} (h : Commits i s s') :
    ∃ produced : List Word, produced.length ≤ 1 ∧ ∀ o, Commits i { s with outq := o } { s' with outq := o ++ produced } := by
  by_cases hin : ∃ m, i = .input m
  · obtain ⟨m, rfl⟩ := hin
    refine ⟨[], Nat.zero_le 1, fun o => ?_⟩
    obtain ⟨t, ht, ⟨hq, hsuspend, rfl⟩ | ⟨v, rest, hq, rfl⟩⟩ := h
    · exact ⟨t, ht, .inl ⟨hq, hsuspend, by simp⟩⟩
    · exact ⟨t, ht, .inr ⟨v, rest, hq, by simp⟩⟩
  · obtain ⟨produced, hlen, hinq, _, hc⟩ := h.hosted fun m hm => hin ⟨m, hm⟩
    refine ⟨produced, hlen, fun o => ?_⟩
    have hsame : s'.hosted s.config.suspend s.inq (o ++ produced) = { s' with outq := o ++ produced } := by
      rw [← hinq, ← h.config, State.hosted_outq]
    exact hsame ▸ hc s.config.suspend s.inq o

/-- Settles O51: an instruction commits or raises the same whatever `outq` holds, and a fetch does not look at it. -/
theorem outputsDoNotInfluenceTheProgram : Obligations.OutputsDoNotInfluenceTheProgram := by
  intro s s' hstep
  have hraise (f : FaultRecord) (o : List Word) : raise { s with outq := o } f = { raise s f with outq := o ++ [] } := by
    rw [List.append_nil]
    rfl
  obtain ⟨hs, ⟨i, hfetch, hc | ⟨f, hr, rfl⟩⟩ | ⟨f, hf, rfl⟩⟩ := step_eq_next_cases hstep
  · obtain ⟨produced, hlen, hcommits⟩ := hc.withOutq
    exact ⟨produced, hlen, fun o => (step_of_fetch (s := { s with outq := o }) hs hfetch).trans (exec_of_commits (hcommits o))⟩
  · refine ⟨[], Nat.zero_le 1, fun o => ?_⟩
    have hr' : Raises i { s with outq := o } f := hr.hosted s.config.suspend s.inq o fun hq hsuspend => ⟨hsuspend, hq⟩
    exact hraise f o ▸ (step_of_fetch (s := { s with outq := o }) hs hfetch).trans (exec_of_raises hr')
  · exact ⟨[], Nat.zero_le 1, fun o => hraise f o ▸ step_of_fetch_error hs hf⟩

/-! ### Suspension and inputs queued up front (40_execution_engine.md R80) -/

theorem Commits.upFront {i : Instr} {s s' : State} (h : Commits i s s') (hwait : ∀ m, i = .input m → s.inq ≠ []) (later : List Word) :
    Commits i (s.upFront later) (s'.upFront later) := by
  by_cases hin : ∃ m, i = .input m
  · obtain ⟨m, rfl⟩ := hin
    obtain ⟨t, ht, ⟨hq, _⟩ | ⟨v, rest, hq, rfl⟩⟩ := h
    · exact absurd hq (hwait m rfl)
    · exact ⟨t, ht, .inr ⟨v, rest ++ later, congrArg (· ++ later) hq, rfl⟩⟩
  · obtain ⟨produced, _, hinq, houtq, hc⟩ := h.hosted fun m hm => hin ⟨m, hm⟩
    have hsame : s'.hosted false (s.inq ++ later) (s.outq ++ produced) = s'.upFront later := by
      rw [← hinq, ← houtq, State.hosted_upFront]
    exact hsame ▸ hc false (s.inq ++ later) s.outq

/-- Settles O52: a step that does not wait commits or raises the same with SUSPEND = false and more inputs behind. -/
theorem aSuspendingStepMatchesTheUpFrontStep : Obligations.ASuspendingStepMatchesTheUpFrontStep := by
  intro s s' later hsuspend hstep hreply
  obtain ⟨hs, ⟨i, hfetch, hc | ⟨f, hr, rfl⟩⟩ | ⟨f, hf, rfl⟩⟩ := step_eq_next_cases hstep
  · have hwait (m : Mode) (hm : i = .input m) : s.inq ≠ [] := fun hq => by
      subst hm
      obtain ⟨t, ht, _⟩ := hc
      exact hreply (stepReply_of_empty hsuspend hstep hfetch ht hq)
    exact (step_of_fetch (s := s.upFront later) hs hfetch).trans (exec_of_commits (hc.upFront hwait later))
  · have hr' : Raises i (s.upFront later) f := hr.hosted false (s.inq ++ later) s.outq fun _ hno => by cases hsuspend.symm.trans hno
    exact (step_of_fetch (s := s.upFront later) hs hfetch).trans (exec_of_raises hr')
  · exact step_of_fetch_error hs hf

/-- With SUSPEND = false a run of `n + m` uncancelled turns is a run of `n` and then one of `m`, ended or not. -/
theorem runLoop_replicate_add (m : Nat) : ∀ (n : Nat) {s : State}, s.config.suspend = false →
    (runLoop (List.replicate (n + m) false) s).2 =
      (runLoop (List.replicate m false) (runLoop (List.replicate n false) s).2).2
  | 0, s, _ => by rw [Nat.zero_add]; rfl
  | n + 1, s, hsuspend => by
    rw [Nat.add_right_comm, List.replicate_succ, List.replicate_succ]
    cases ht : terminalResult s with
    | some r => rw [runLoop_of_terminal ht, runLoop_of_terminal ht, runLoop_of_terminal ht]
    | none =>
      have hs := terminalResult_eq_none.mp ht
      obtain ⟨s', hstep⟩ := step_next hs
      rw [runLoop_step_of_not_suspend hs hsuspend hstep, runLoop_step_of_not_suspend hs hsuspend hstep]
      exact runLoop_replicate_add m n (step_keeps_config hstep ▸ hsuspend)

/-- One turn that is not cancelled is one turn of the up-front run, or none when the step waits. -/
theorem turn_matches_upFront {s s' : State} (hsuspend : s.config.suspend = true) (hstep : step s = .next s') (later : List Word) :
    ∃ k, ∀ n, runLoop (List.replicate (k + n) false) (s.upFront later) = runLoop (List.replicate n false) (s'.upFront later) := by
  by_cases hreply : stepReply s s' = .needsInput
  · obtain ⟨rfl, _⟩ := wait_of_needsInput hstep hreply
    exact ⟨0, fun n => by rw [Nat.zero_add]⟩
  · obtain ⟨hs, _⟩ := step_cases hstep
    have hup := aSuspendingStepMatchesTheUpFrontStep s s' later hsuspend hstep hreply
    exact ⟨1, fun n => by
      rw [Nat.add_comm, List.replicate_succ]
      exact runLoop_step_of_not_suspend (s := s.upFront later) hs rfl hup _⟩

/-- An uncancelled run with SUSPEND = true reaches what some number of turns reaches with SUSPEND = false and more inputs behind. -/
theorem runLoop_matches_upFront (later : List Word) : ∀ {samples : List Bool}, (∀ c ∈ samples, c = false) →
    ∀ {s : State}, s.config.suspend = true →
      ∃ n, (runLoop (List.replicate n false) (s.upFront later)).2 = (runLoop samples s).2.upFront later
  | [], _, s, _ => ⟨0, rfl⟩
  | cancel :: samples, hfalse, s, hsuspend => by
    obtain ⟨hcancel, hfalse⟩ := List.forall_mem_cons.mp hfalse
    rcases runLoop_cons_cases cancel s with ⟨r, _, hrun⟩ | ⟨_, htrue, _⟩ | ⟨s', hstep, _, hrest⟩
    · exact ⟨0, by rw [hrun]; rfl⟩
    · cases hcancel.symm.trans htrue
    · obtain ⟨k, hk⟩ := turn_matches_upFront hsuspend hstep later
      rcases hrest with ⟨r, _, hrun⟩ | hrun
      · exact ⟨k + 0, by rw [hk, hrun]; rfl⟩
      · obtain ⟨n, hn⟩ := runLoop_matches_upFront later hfalse (step_keeps_config hstep ▸ hsuspend)
        exact ⟨k + n, by rw [hk, hn, hrun]⟩

theorem runLoop_keeps_config (samples : List Bool) (s : State) : (runLoop samples s).2.config = s.config :=
  runLoop_keeps (P := fun t => t.config = s.config) (fun _ _ h hstep => (step_keeps_config hstep).trans h) samples s rfl

/-- What one event of such a session is: a supply, or a run that is not cancelled and supplies nothing. -/
theorem suppliesAndResumes_cons {e : SessionEvent} {es : List SessionEvent} (hes : suppliesAndResumes (e :: es))
    {x : Session} {r : HostReply × Session} (h : x.next e = some r) :
    suppliesAndResumes es ∧
      ((∃ w, r.2.machine = x.machine.pushInput w ∧ e.supplied = [w]) ∨ (r.2.machine = x.machine ∧ e.supplied = []) ∨
        ∃ samples, (∀ c ∈ samples, c = false) ∧ r.2.machine = (runLoop samples x.machine).2 ∧ e.supplied = []) := by
  rcases Session.next_cases h with ⟨_, c, rfl, rfl⟩ | ⟨_, samples, rfl | ⟨rfl, _⟩, rfl⟩
  · cases c with
    | supply v =>
      refine ⟨hes, ?_⟩
      rw [Session.after_machine, SessionEvent.supplied]
      by_cases hv : FitsWord v
      · rw [if_pos hv, hostCall_supply_of_fits hv]
        exact .inl ⟨_, rfl, rfl⟩
      · rw [if_neg hv, hostCall_supply_of_not_fits hv]
        exact .inr (.inl ⟨rfl, rfl⟩)
    | run samples | resume samples =>
      obtain ⟨hfalse, hes⟩ := hes
      exact ⟨hes, .inr (.inr ⟨samples, hfalse, rfl, rfl⟩)⟩
    | nextOutput | latestOutput | inspect | requestCancel => cases hes
  · obtain ⟨hfalse, hes⟩ := hes
    exact ⟨hes, .inr (.inr ⟨samples, hfalse, rfl, rfl⟩)⟩
  · cases hes

theorem suppliedWords_cons (e : SessionEvent) (es : List SessionEvent) : suppliedWords (e :: es) = e.supplied ++ suppliedWords es :=
  List.flatMap_cons

theorem upFront_pushInput (s : State) (w : Word) (later : List Word) : (s.pushInput w).upFront later = s.upFront ([w] ++ later) := by
  simp [State.upFront, State.pushInput]

/-- The session statement from any session, whether a run of it is in progress or not. -/
theorem hostSession_matches_upFront : ∀ (events : List SessionEvent) {x x' : Session}, x.machine.config.suspend = true →
    suppliesAndResumes events → hostSession events x = some x' →
    ∃ n, (runLoop (List.replicate n false) (x.machine.upFront (suppliedWords events))).2 = x'.machine.upFront []
  | [], _, _, _, _, h => by cases h; exact ⟨0, rfl⟩
  | e :: es, x, x', hsuspend, hes, h => by
    obtain ⟨r, hnext, h⟩ := hostSession_cons.mp h
    have ih (hr : r.2.machine.config.suspend = true) (hes : suppliesAndResumes es) := hostSession_matches_upFront es hr hes h
    rw [suppliedWords_cons]
    obtain ⟨hes, ⟨w, hr, hw⟩ | ⟨hr, hw⟩ | ⟨samples, hfalse, hr, hw⟩⟩ := suppliesAndResumes_cons hes hnext <;> rw [hw] <;> rw [hr] at ih
    · exact upFront_pushInput x.machine w _ ▸ ih hsuspend hes
    · exact ih hsuspend hes
    · obtain ⟨n, hn⟩ := runLoop_matches_upFront (suppliedWords es) hfalse hsuspend
      obtain ⟨m, hm⟩ := ih (runLoop_keeps_config samples x.machine ▸ hsuspend) hes
      exact ⟨n + m, by rw [List.nil_append, runLoop_replicate_add m n rfl, hn, hm]⟩

/-- Settles O53: by induction on the events, each of which is a supply or a stretch of the one up-front run. -/
theorem anInteractiveSessionMatchesAnUpFrontRun : Obligations.AnInteractiveSessionMatchesAnUpFrontRun :=
  fun _ events _ hsuspend hes h => hostSession_matches_upFront events hsuspend hes h

end Sys2Proof.Machine
end
